-- ==== Sys2Proof/Word.lean ====
section
/-! DEFINITION. The byte: every register, memory cell and operand of the LS-8 holds one (00_scope.md R7). -/

namespace Sys2Proof

/-- One byte, an unsigned value in 0 to 255 (00_scope.md R7, 10_state.md R20 and R26). -/
abbrev Byte := BitVec 8

end Sys2Proof
end

