-- ==== Sys2Proof/Config.lean ====
section
/-! DEFINITION. What is fixed for the machine: the parameters of 00_scope.md R6. The two OPEN rows of that table are
constants without a body, so no proof can see their values. -/

namespace Sys2Proof

/-- The four fault kinds (60_exceptions.md R150). -/
inductive FaultKind where
  | outOfBounds
  | invalidRegister
  | unsupportedALUOperation
  | unknownOpcode
  deriving DecidableEq, Repr

/-- The cause code of a kind, the spec's own numbering (R150, decision D9; log 19). -/
def FaultKind.code : FaultKind → Nat
  | .outOfBounds => 1
  | .invalidRegister => 2
  | .unsupportedALUOperation => 3
  | .unknownOpcode => 4

namespace Config

/-- `MEM_SIZE`: memory cells, at addresses 0 to 255 (R6, 20_memory.md R40). -/
abbrev memSize : Nat := 256

/-- `NREG`: general registers (R6, 10_state.md R20). -/
abbrev numRegs : Nat := 8

/-- `IM_INDEX`: the register with the reserved role of interrupt mask (R6, 10_state.md R22). -/
def imIndex : Fin 8 := 5

/-- `IS_INDEX`: the register with the reserved role of interrupt status (R6, 10_state.md R22). -/
def isIndex : Fin 8 := 6

/-- `SP_INDEX`: the stack-pointer register (R6, 10_state.md R22). -/
def spIndex : Fin 8 := 7

/-- `SP_INIT`: the reset value of R7 (R6, 10_state.md R35). -/
def spInit : Byte := 0xF4#8

/-- The reset value of `pc` (R6, 10_state.md R35). -/
def resetPc : Byte := 0#8

/-- The address the image is loaded from (R6, 70_reset_and_hazards.md R181). -/
def loadAddress : Nat := 0

/-- The reset value of FL (10_state.md R35, the spec's decision D5; log 2). -/
def flInit : Byte := 0#8

/-- What a memory cell holds that nothing has written: 0 (20_memory.md R40, 10_state.md R35, decision D17; log 5). -/
def clearedByte : Byte := 0#8

/-- `trace_enabled`, an OPEN parameter (R6, decision D12; log 10). -/
opaque traceEnabled : Bool

/-- The OPEN part of `fault_exit_status` (R6, decision D10; log 11): any natural number, one less than the status. -/
opaque faultExitStatusPred : FaultKind → Nat

/-- `fault_exit_status` of a kind: an open number that is not zero (R6, 60_exceptions.md R158, decision D10; log 11). -/
def faultExitStatus (k : FaultKind) : Nat :=
  faultExitStatusPred k + 1

end Config

end Sys2Proof
end

