-- ==== Sys2Proof/Machine/State.lean ====
section
/-! DEFINITION. The architectural state, whole (10_state.md R34), its reset value (R35), and the reasons a run or a load
stops (60_exceptions.md R150). -/

namespace Sys2Proof.Machine

/-- The operation tags of the ALU's `apply` (42_alu.md R110). Three are supported; `other` stands for any tag outside the
set, named by a number (log 12). No instruction passes `other` (R117). -/
inductive AluTag where
  | add | sub | mul
  | other (n : Nat)
  deriving DecidableEq, Repr

/-- A fault: its kind with the info it records (60_exceptions.md R150). In a cycle a fault is TAKEN: the step answers a
next state whose status is `faulted` with it (R156), so `Machine.step` and `Machine.exec` never answer `Outcome.fault`
(safe: nothing the spec describes is left out; log 1). The image load alone answers `Outcome.fault`, for then no run
starts (70_reset_and_hazards.md R181; log 15). -/
inductive Fault where
  /-- An access or an advance at an address of 256 or more (R151). Raised by the fetch (`fetch`), by `State.memRead` and
  `State.memWrite`, by `State.advance`, and, as the outcome of a load, by `loadImage`. Safe: the spec names this fault for
  each of these (where real hardware would wrap, the model stops; D2, D3; log 6, 7, 15). -/
  | outOfBounds (addr : Nat)
  /-- A register operand of 8 or more, when the handler accesses it (R152). Raised by `State.readReg` and
  `State.writeReg`. Safe: the spec names this fault. -/
  | invalidRegister (index : Byte)
  /-- An ALU tag other than ADD, SUB and MUL (R153). Raised by `aluResult` for `AluTag.other`; no instruction reaches it
  (42_alu.md R117). Safe. -/
  | unsupportedALUOperation (tag : AluTag)
  /-- An opcode byte not in the opcode table (R154). Raised by `fetchDecode`. Safe: the spec names this fault. -/
  | unknownOpcode (op : Byte)
  deriving DecidableEq, Repr

/-- The kind of a fault (R150). -/
def Fault.kind : Fault → FaultKind
  | .outOfBounds _ => .outOfBounds
  | .invalidRegister _ => .invalidRegister
  | .unsupportedALUOperation _ => .unsupportedALUOperation
  | .unknownOpcode _ => .unknownOpcode

/-- Why the model gives no meaning. Nothing in this model answers it: every instruction has its meaning. -/
inductive Refusal where
  /-- An instruction that has no meaning yet, by its mnemonic. Raised by no arm of `exec`. Safe. -/
  | notModelled (mnemonic : String)
  deriving DecidableEq, Repr

/-- The run status (10_state.md R31). -/
inductive Status where
  | running
  | halted
  | faulted (f : Fault)
  deriving DecidableEq, Repr

/-- Memory: the cells that do not hold `Config.clearedByte`, as (address, byte) pairs with addresses strictly rising; an
unlisted cell holds `Config.clearedByte` (20_memory.md R40; log 21). `Memory.wf` says the form holds. -/
abbrev Memory := List Host.Cell

/-- The whole architectural state (10_state.md R34). -/
structure State where
  /-- R0 to R7 (R20); R5 is IM, R6 is IS and R7 is SP (R22). -/
  regs : Vector Byte 8
  /-- The program counter, the address of the next instruction to fetch (R27). -/
  pc : Byte
  /-- FL, the flags register (R29). -/
  fl : Byte
  /-- The memory array of 256 byte cells (20_memory.md R40). -/
  mem : Memory
  /-- Running, Halted or Faulted (R31). -/
  status : Status
  /-- The bytes PRN has emitted, oldest first (R32). -/
  out : List Byte
  deriving DecidableEq, Repr

/-- What one cycle, one meaning or one load answers. -/
abbrev Result := Host.Outcome State Fault Refusal

/-- The state after reset with the empty image (10_state.md R35, 70_reset_and_hazards.md R180). -/
def State.reset : State where
  regs := #v[0#8, 0#8, 0#8, 0#8, 0#8, 0#8, 0#8, Config.spInit]
  pc := Config.resetPc
  fl := Config.flInit
  mem := []
  status := .running
  out := []

end Sys2Proof.Machine
end

