-- ==== Sys2Proof/Machine/Flags.lean ====
section
/-! DEFINITION. The flags register FL (10_state.md R29). No instruction reads or writes it (R30), the ALU among them
(42_alu.md R112), so there is no flag computation to give: the file names the three flags. -/

namespace Sys2Proof.Machine

/-- L, less-than: bit 2 of FL (10_state.md R29, decision D6; log 3). -/
def State.flagL (s : State) : Bool :=
  s.fl.getLsbD 2

/-- G, greater-than: bit 1 of FL (R29, decision D6; log 3). -/
def State.flagG (s : State) : Bool :=
  s.fl.getLsbD 1

/-- E, equal: bit 0 of FL (R29, decision D6; log 3). -/
def State.flagE (s : State) : Bool :=
  s.fl.getLsbD 0

end Sys2Proof.Machine
end

