-- ==== Sys2Proof/Machine/Operands.lean ====
section
/-! DEFINITION. The two operand forms of the instruction set: a register index and an immediate (30_encoding.md R63). -/

namespace Sys2Proof.Machine

/-- A register operand: the whole byte as an index. 0 to 7 name R0 to R7; 8 or more is not masked and faults
(30_encoding.md R64, 10_state.md R21). -/
def regOperand (b : Byte) : Except Fault (Fin 8) :=
  if h : b.toNat < Config.numRegs then .ok ⟨b.toNat, h⟩ else .error (.invalidRegister b)

/-- An immediate operand: the byte as it stands, with no extension (30_encoding.md R65). -/
def immOperand (b : Byte) : Byte :=
  b

end Sys2Proof.Machine
end

