-- ==== Sys2Proof/Machine/Ops.lean ====
section
/-! DEFINITION. The named operations of 00_scope.md R9 over memory, registers, output, `pc` and `status`, each defined
once; among them the fault entry (60_exceptions.md R156). The hardware has no return from a fault (R160). -/

namespace Sys2Proof.Machine

/-! ### Memory (20_memory.md) -/

/-- The byte at address `a`: the listed one, or the cleared byte (20_memory.md R40). -/
def Memory.read : Memory → Nat → Byte
  | [], _ => Config.clearedByte
  | (b, w) :: m, a => if a = b then w else Memory.read m a

/-- Put byte `v` at address `a`, keeping the canonical form: writing the cleared byte removes the entry (R42; log 21). -/
def Memory.write : Memory → Nat → Byte → Memory
  | [], a, v => if v = Config.clearedByte then [] else [(a, v)]
  | (b, w) :: m, a, v =>
    if a < b then
      if v = Config.clearedByte then (b, w) :: m else (a, v) :: (b, w) :: m
    else if a = b then
      if v = Config.clearedByte then m else (a, v) :: m
    else
      (b, w) :: Memory.write m a v

/-- The canonical form of a memory: addresses strictly rising and below 256 (R40), no entry that holds the cleared byte. -/
abbrev Memory.wf (m : Memory) : Prop :=
  m.Pairwise (fun c d => c.1 < d.1) ∧ ∀ c ∈ m, c.1 < Config.memSize ∧ c.2 ≠ Config.clearedByte

/-- `MemRead(a, 1)` (20_memory.md R41). The address is an unbounded number and is checked (00_scope.md R8). -/
def State.memRead (s : State) (a : Nat) : Except Fault Byte :=
  if a < Config.memSize then .ok (s.mem.read a) else .error (.outOfBounds a)

/-- `MemWrite(a, 1, v)` (20_memory.md R42). -/
def State.memWrite (s : State) (a : Nat) (v : Byte) : Except Fault State :=
  if a < Config.memSize then .ok { s with mem := s.mem.write a v } else .error (.outOfBounds a)

/-! ### Registers (10_state.md R20 to R26) -/

/-- The value of register `i`. -/
def State.reg (s : State) (i : Fin 8) : Byte :=
  s.regs.get i

/-- The state with register `i` holding `v`. No register is hard-wired or read-only (R25); IM and IS are ordinary
registers (R23). -/
def State.setReg (s : State) (i : Fin 8) (v : Byte) : State :=
  { s with regs := s.regs.set i.val v i.isLt }

/-- `x[i]` for an operand byte `i` (00_scope.md R9, 10_state.md R21). -/
def State.readReg (s : State) (i : Byte) : Except Fault Byte :=
  match regOperand i with
  | .ok r => .ok (s.reg r)
  | .error f => .error f

/-- `x[i] <- v` for an operand byte `i` (00_scope.md R9, 10_state.md R21). -/
def State.writeReg (s : State) (i v : Byte) : Except Fault State :=
  match regOperand i with
  | .ok r => .ok (s.setReg r v)
  | .error f => .error f

/-- IM, register R5: the reserved role of interrupt mask, an ordinary register (10_state.md R22, R23; log 22). -/
def State.im (s : State) : Byte :=
  s.reg Config.imIndex

/-- IS, register R6: the reserved role of interrupt status, an ordinary register (R22, R23; log 22). -/
def State.is (s : State) : Byte :=
  s.reg Config.isIndex

/-- SP, register R7 (10_state.md R24). -/
def State.sp (s : State) : Byte :=
  s.reg Config.spIndex

/-- `x[7] <- v`. -/
def State.setSp (s : State) (v : Byte) : State :=
  s.setReg Config.spIndex v

/-! ### Arithmetic -/

/-- `x mod 256` of an exact integer (00_scope.md R8, 10_state.md R26). -/
def narrow (x : Int) : Byte :=
  BitVec.ofInt 8 x

/-! ### Output (10_state.md R32) -/

/-- `Emit(v)`: append `v` to `out`. -/
def State.emit (s : State) (v : Byte) : State :=
  { s with out := s.out ++ [v] }

/-! ### Faults, halting and the advance of `pc` -/

/-- Fault entry: `status <- Faulted(kind, info)` and nothing else. No cause register, no saved `pc`, no vector: `pc` keeps
the address of the faulting instruction, and effects made before stay (60_exceptions.md R156, R157; 00_scope.md R10;
log 1, 8). -/
def State.raise (s : State) (f : Fault) : Result :=
  .next { s with status := .faulted f }

/-- Go on with the value of a primitive, or raise its fault in the state `s` the primitive ran in (00_scope.md R10). -/
def orRaise {α : Type} (r : Except Fault α) (s : State) (k : α → Result) : Result :=
  match r with
  | .ok v => k v
  | .error f => s.raise f

/-- `Advance(len)`: `pc <- pc + len`, or OutOfBounds(pc + len) where that is 256 or more, `pc` keeping its value
(40_execution_loop.md R87, decision D3; log 7). -/
def State.advance (s : State) (len : Nat) : Result :=
  if s.pc.toNat + len < Config.memSize then
    .next { s with pc := BitVec.ofNat 8 (s.pc.toNat + len) }
  else
    s.raise (.outOfBounds (s.pc.toNat + len))

/-- `status <- Halted`, with no advance (44_control.md R140). -/
def State.halt (s : State) : State :=
  { s with status := .halted }

/-! ### The ALU (42_alu.md R110) -/

/-- The result of an operation tag on two register values: exact, then mod 256 (R110, R116). -/
def aluResult (tag : AluTag) (va vb : Byte) : Except Fault Byte :=
  match tag with
  | .add => .ok (narrow ((va.toNat : Int) + (vb.toNat : Int)))
  | .sub => .ok (narrow ((va.toNat : Int) - (vb.toNat : Int)))
  | .mul => .ok (narrow ((va.toNat : Int) * (vb.toNat : Int)))
  | .other n => .error (.unsupportedALUOperation (.other n))

/-- `ALU(tag, a, b)`: read register `a`, then register `b`, compute, write register `a` (R110, R111; the order of the reads
is decision D8, log 9). A raise leaves the state as it was: the one write is last. -/
def alu (tag : AluTag) (a b : Byte) (s : State) : Except Fault State :=
  match s.readReg a with
  | .error f => .error f
  | .ok va =>
    match s.readReg b with
    | .error f => .error f
    | .ok vb =>
      match aluResult tag va vb with
      | .error f => .error f
      | .ok r => s.writeReg a r

end Sys2Proof.Machine
end

