-- ==== Sys2Proof/Machine/Arith.lean ====
section
/-! DEFINITION. MUL, ADD and SUB over the one ALU operation (42_alu.md). -/

namespace Sys2Proof.Machine

/-- MUL(a, b): `x[a] <- (x[a] * x[b]) mod 256`, then Advance(3) (R115). -/
def execMul (a b : Byte) (s : State) : Result :=
  orRaise (alu .mul a b s) s fun s1 => s1.advance 3

/-- ADD(a, b): `x[a] <- (x[a] + x[b]) mod 256`, then Advance(3) (R113). -/
def execAdd (a b : Byte) (s : State) : Result :=
  orRaise (alu .add a b s) s fun s1 => s1.advance 3

/-- SUB(a, b): `x[a] <- (x[a] - x[b]) mod 256`, then Advance(3) (R114). -/
def execSub (a b : Byte) (s : State) : Result :=
  orRaise (alu .sub a b s) s fun s1 => s1.advance 3

end Sys2Proof.Machine
end

