-- ==== Sys2Proof/Machine/Control.lean ====
section
/-! DEFINITION. HLT (44_control.md). -/

namespace Sys2Proof.Machine

/-- HLT: `status <- Halted`; `pc` keeps the address of the HLT byte (R140). -/
def execHlt (s : State) : Result :=
  .next s.halt

end Sys2Proof.Machine
end

