-- ==== Sys2Proof/Machine/LoadOutput.lean ====
section
/-! DEFINITION. LDI and PRN (41_load_and_output.md). -/

namespace Sys2Proof.Machine

/-- LDI(a, b): `x[a] <- b`, then Advance(3) (R100). -/
def execLdi (a b : Byte) (s : State) : Result :=
  orRaise (s.writeReg a (immOperand b)) s fun s1 => s1.advance 3

/-- PRN(a): `v <- x[a]`, Emit(v), then Advance(2) (R101). -/
def execPrn (a : Byte) (s : State) : Result :=
  orRaise (s.readReg a) s fun v => (s.emit v).advance 2

end Sys2Proof.Machine
end

