-- ==== Sys2Proof/Machine/Stack.lean ====
section
/-! DEFINITION. PUSH and POP (43_stack.md). SP arithmetic is modulo 256 (R133, decision D4; log 4). -/

namespace Sys2Proof.Machine

/-- PUSH(a): decrement R7, read `x[a]` (so PUSH R7 stores the decremented SP), write it at the new R7, then Advance(2)
(R130). A bad index faults after the decrement, which stays. -/
def execPush (a : Byte) (s : State) : Result :=
  let s1 := s.setSp (narrow ((s.sp.toNat : Int) - 1))
  orRaise (s1.readReg a) s1 fun v =>
    orRaise (s1.memWrite s1.sp.toNat v) s1 fun s2 => s2.advance 2

/-- POP(a): read memory at R7, write it to `x[a]`, increment R7 (so POP R7 leaves the loaded byte plus 1), then Advance(2)
(R131). -/
def execPop (a : Byte) (s : State) : Result :=
  orRaise (s.memRead s.sp.toNat) s fun v =>
    orRaise (s.writeReg a v) s fun s1 =>
      (s1.setSp (narrow ((s1.sp.toNat : Int) + 1))).advance 2

end Sys2Proof.Machine
end

