-- ==== Sys2Proof/Syntax.lean ====
section
/-! DEFINITION. The eight instructions of 30_encoding.md R66, one constructor per row of spec/opcode_table.json. -/

namespace Sys2Proof

/-- An instruction with the operand bytes its format uses (R62). A register operand is the WHOLE byte, an index 0 to 255
that is not masked (R64); an immediate is the whole byte as it stands (R65). Unused bytes of the window are no part of an
instruction (R61). -/
inductive Instr where
  /-- LDI, format RI: register index, immediate (41_load_and_output.md R100). -/
  | ldi (r imm : Byte)
  /-- PRN, format R: register index (R101). -/
  | prn (r : Byte)
  /-- HLT, format N (44_control.md R140). -/
  | hlt
  /-- MUL, format RR: register A (also the destination), register B (42_alu.md R115). -/
  | mul (a b : Byte)
  /-- ADD, format RR (R113). -/
  | add (a b : Byte)
  /-- SUB, format RR: minuend and destination, subtrahend (R114). -/
  | sub (a b : Byte)
  /-- PUSH, format R: source register index (43_stack.md R130). -/
  | push (r : Byte)
  /-- POP, format R: destination register index (R131). -/
  | pop (r : Byte)
  deriving DecidableEq, Repr

/-- The mnemonics of the opcode map, in its order (R66). -/
inductive Mnemonic where
  | ldi | prn | hlt | mul | add | sub | push | pop
  deriving DecidableEq, Repr

/-- The mnemonic of an instruction. -/
def Instr.mnemonic : Instr → Mnemonic
  | .ldi _ _ => .ldi
  | .prn _ => .prn
  | .hlt => .hlt
  | .mul _ _ => .mul
  | .add _ _ => .add
  | .sub _ _ => .sub
  | .push _ => .push
  | .pop _ => .pop

/-- The register operands of an instruction, in the order of its encoding (R62). -/
def Instr.regOperands : Instr → List Byte
  | .ldi r _ => [r]
  | .prn r => [r]
  | .hlt => []
  | .mul a b => [a, b]
  | .add a b => [a, b]
  | .sub a b => [a, b]
  | .push r => [r]
  | .pop r => [r]

/-- The operand bytes of an instruction, in the order of its encoding: the registers, then the immediate (R62). -/
def Instr.operandBytes : Instr → List Byte
  | .ldi r imm => [r, imm]
  | .prn r => [r]
  | .hlt => []
  | .mul a b => [a, b]
  | .add a b => [a, b]
  | .sub a b => [a, b]
  | .push r => [r]
  | .pop r => [r]

end Sys2Proof
end

