-- ==== Sys2Proof/Decode.lean ====
section
/-! DEFINITION. The opcode table (30_encoding.md R66), the decoder that looks up the whole opcode byte in it
(R67; 40_execution_loop.md R85), and the encoder written from the same table. -/

namespace Sys2Proof

/-- The four formats (R62). -/
inductive Format where
  | ri | rr | r | n
  deriving DecidableEq, Repr

/-- One row of the opcode map (R66): opcode byte, format and length in memory. -/
structure OpcodeRow where
  opcode : Byte
  format : Format
  length : Nat
  deriving DecidableEq, Repr

/-- The row of each mnemonic in the opcode map (R66). -/
def Mnemonic.row : Mnemonic → OpcodeRow
  | .ldi  => ⟨0b10000010#8, .ri, 3⟩
  | .prn  => ⟨0b01000111#8, .r, 2⟩
  | .hlt  => ⟨0b00000001#8, .n, 1⟩
  | .mul  => ⟨0b10100010#8, .rr, 3⟩
  | .add  => ⟨0b10100000#8, .rr, 3⟩
  | .sub  => ⟨0b10100001#8, .rr, 3⟩
  | .push => ⟨0b01000101#8, .r, 2⟩
  | .pop  => ⟨0b01000110#8, .r, 2⟩

/-- The Opcode Table, "the single source of truth for instruction semantics" (R66, R67). -/
def opcodeTable : List Mnemonic :=
  [.ldi, .prn, .hlt, .mul, .add, .sub, .push, .pop]

/-- The instruction's length in memory, fixed by its opcode (R60, R68). -/
def Instr.length (i : Instr) : Nat :=
  i.mnemonic.row.length

/-- The bytes a cycle reads at `pc`, `pc+1` and `pc+2`: opcode, operand A, operand B (R61, R62). -/
structure Window where
  op : Byte
  a : Byte
  b : Byte
  deriving DecidableEq, Repr

/-- Why a window is not an instruction: one reason, since only the opcode byte takes part in decoding (R67). -/
inductive Reject where
  /-- The opcode byte is not in the opcode table (R70). -/
  | unknownOpcode (op : Byte)
  deriving DecidableEq, Repr

/-- The table entry whose opcode is the whole byte `op` (R67). -/
def lookupOpcode (op : Byte) : Option Mnemonic :=
  opcodeTable.find? fun m => m.row.opcode == op

/-- The instruction of a mnemonic with operand bytes `a` and `b`; a format ignores the bytes it does not use (R61, R63). -/
def Mnemonic.build (m : Mnemonic) (a b : Byte) : Instr :=
  match m with
  | .ldi => .ldi a b
  | .prn => .prn a
  | .hlt => .hlt
  | .mul => .mul a b
  | .add => .add a b
  | .sub => .sub a b
  | .push => .push a
  | .pop => .pop a

/-- Decode a window: look up the opcode byte, then hand the operand bytes on (40_execution_loop.md R85, R86). -/
def decode (w : Window) : Except Reject Instr :=
  match lookupOpcode w.op with
  | some m => .ok (m.build w.a w.b)
  | none => .error (.unknownOpcode w.op)

/-- The window at the front of a list of bytes, if it has three (R61). -/
def windowOf : List Byte → Option Window
  | op :: a :: b :: _ => some ⟨op, a, b⟩
  | _ => none

/-- The bytes of an instruction in memory: the opcode byte, then its operand bytes, in ascending address order
(R60, R66, R72). Unused window bytes are no part of it (log 23). -/
def encode (i : Instr) : List Byte :=
  i.mnemonic.row.opcode :: i.operandBytes

/-- The window of an opcode-table word: bits 7..0 are byte 0, bits 15..8 byte 1, bits 23..16 byte 2, and every bit from
`nbits` up is 0. -/
def tableWindow (nbits w : Nat) : Window :=
  let v := w % 2 ^ nbits
  ⟨BitVec.ofNat 8 v, BitVec.ofNat 8 (v / 2 ^ 8), BitVec.ofNat 8 (v / 2 ^ 16)⟩

/-- The instruction the decoder reads from an opcode-table word, if it reads one. -/
def decodeTableWord (nbits w : Nat) : Option Instr :=
  match decode (tableWindow nbits w) with
  | .ok i => some i
  | .error _ => none

end Sys2Proof
end

