-- ==== Sys2Proof/Machine/Fetch.lean ====
section
/-! DEFINITION. The fetch of three bytes and their decode (40_execution_loop.md R83 to R85), and the placing of a window
where the next fetch reads it. -/

namespace Sys2Proof.Machine

/-- Read the bytes at `pc`, `pc+1` and `pc+2`, in that order, each with the bound check (R83, decision D2; log 6). -/
def fetch (s : State) : Except Fault Window :=
  match s.memRead s.pc.toNat with
  | .error f => .error f
  | .ok op =>
    match s.memRead (s.pc.toNat + 1) with
    | .error f => .error f
    | .ok a =>
      match s.memRead (s.pc.toNat + 2) with
      | .error f => .error f
      | .ok b => .ok ⟨op, a, b⟩

/-- The fault of a rejected window: UnknownOpcode, with the offending byte (R85). -/
def rejectFault : Reject → Fault
  | .unknownOpcode op => .unknownOpcode op

/-- Fetch, then decode; the fetch's fault comes first (R84, R85; 60_exceptions.md R159). -/
def fetchDecode (s : State) : Except Fault Instr :=
  match fetch s with
  | .error f => .error f
  | .ok w =>
    match decode w with
    | .ok i => .ok i
    | .error e => .error (rejectFault e)

/-- Where `placeWindow` puts a window: at `pc`, or at 0 where no window fits at `pc` (`pc` 254 or 255, R84; log 13). -/
def windowPc (s : State) : Byte :=
  if s.pc.toNat + 2 < Config.memSize then s.pc else Config.resetPc

/-- The state with a window placed so that the very next step fetches it: its three bytes stored at `pc` (moved to 0 where
no window fits) and the status Running (log 13). -/
def placeWindow (s : State) (w : Window) : State :=
  let p := (windowPc s).toNat
  { s with
    pc := windowPc s
    status := .running
    mem := ((s.mem.write p w.op).write (p + 1) w.a).write (p + 2) w.b }

end Sys2Proof.Machine
end

