-- ==== Sys2Proof/Machine/Step.lean ====
section
/-! DEFINITION. The step of the core (40_execution_loop.md R88). The trace a cycle emits is an output, not state: it is
`State.tracePort` of Machine/Interface.lean (R82; log 10). -/

namespace Sys2Proof.Machine

/-- One cycle: nothing unless Running (R80; log 14); otherwise fetch, decode and dispatch, a fault ending the run with
`status <- Faulted(kind, info)` (R88). -/
def step (s : State) : Host.Outcome State Fault Refusal :=
  match s.status with
  | .running => orRaise (fetchDecode s) s fun i => exec i s
  | .halted => .next s
  | .faulted _ => .next s

/-- `s` with an opcode-table word stored where `step` fetches its next instruction (log 13). -/
def State.withFetchWord (s : State) (nbits w : Nat) : State :=
  placeWindow s (tableWindow nbits w)

end Sys2Proof.Machine
end

