-- ==== Sys2Proof/WellFormed.lean ====
section
/-! DEFINITION. Which instructions can be written in the assembly syntax of 30_encoding.md R72: those whose register
operands name R0 to R7. The decoder also reads the others, and their handlers take InvalidRegister (R64; log 17). -/

namespace Sys2Proof

/-- A byte names a register when it is an index 0 to 7 (30_encoding.md R64). -/
abbrev namesRegister (b : Byte) : Prop :=
  b.toNat < Config.numRegs

/-- An instruction is well formed when every register operand names a register (R64, R73). -/
abbrev Instr.WellFormed (i : Instr) : Prop :=
  ∀ b ∈ i.regOperands, namesRegister b

end Sys2Proof
end

