-- ==== Sys2Proof/Machine/Interface.lean ====
section
/-! DEFINITION. The block's interface to its host (10_state.md R36): the image load, the exit status, the diagnostic, the
trace port, and the text forms the spec gives (a PRN line, an assembly statement). -/

namespace Sys2Proof.Machine

/-! ### Image load (70_reset_and_hazards.md R180, R181) -/

/-- Write bytes to rising addresses from `a`, each with the memory's bound check (R181, 20_memory.md R42). -/
def loadBytes : List Byte → Nat → State → Except Fault State
  | [], _, s => .ok s
  | v :: vs, a, s =>
    match s.memWrite a v with
    | .error f => .error f
    | .ok s1 => loadBytes vs (a + 1) s1

/-- Load an image into the machine after reset. An image of more than 256 bytes does not load: OutOfBounds(256), and no
run starts (R181, decision D13; log 15). -/
def loadImage (image : List Byte) : Result :=
  match loadBytes image Config.loadAddress State.reset with
  | .ok s => .next s
  | .error f => .fault f

/-! ### The end of a run (60_exceptions.md R158) -/

/-- The exit status of a fault: 1 for UnknownOpcode, the open parameter for the others (R158, decision D10; log 11). -/
def Fault.exitStatus (f : Fault) : Nat :=
  match f with
  | .unknownOpcode _ => 1
  | .outOfBounds _ => Config.faultExitStatus f.kind
  | .invalidRegister _ => Config.faultExitStatus f.kind
  | .unsupportedALUOperation _ => Config.faultExitStatus f.kind

/-- The exit status, after the run: 0 after Halted (R158; 10_state.md R36). None while Running. -/
def State.exitStatus (s : State) : Option Nat :=
  match s.status with
  | .running => none
  | .halted => some 0
  | .faulted f => some f.exitStatus

/-- The diagnostic: for UnknownOpcode the offending byte, after Halted none (R158; 10_state.md R36). While Running there is
no end of a run to diagnose. For OutOfBounds, InvalidRegister and UnsupportedALUOperation R158 says "not specified" (N7): that
the model answers none for these three is its own DESIGN CHOICE (log 25). -/
def State.diagnostic (s : State) : Option Byte :=
  match s.status with
  | .faulted (.unknownOpcode op) => some op
  | .faulted (.outOfBounds _) => none
  | .faulted (.invalidRegister _) => none
  | .faulted (.unsupportedALUOperation _) => none
  | .running => none
  | .halted => none

/-! ### The trace port (40_execution_loop.md R82, 60_exceptions.md R167) -/

/-- A trace snapshot: `pc`, the three bytes at it (absent at an address of 256 or more) and all eight registers (R82). -/
structure Snapshot where
  pc : Byte
  byte0 : Option Byte
  byte1 : Option Byte
  byte2 : Option Byte
  regs : Vector Byte 8
  deriving DecidableEq, Repr

/-- The byte a snapshot shows for address `a`: absent at 256 or more, with no fault (R82, decision D12; log 10). -/
def State.snapshotByte (s : State) (a : Nat) : Option Byte :=
  if a < Config.memSize then some (s.mem.read a) else none

/-- The snapshot of a state (R82). It holds neither FL, nor status, nor `out`. -/
def State.snapshot (s : State) : Snapshot where
  pc := s.pc
  byte0 := s.snapshotByte s.pc.toNat
  byte1 := s.snapshotByte (s.pc.toNat + 1)
  byte2 := s.snapshotByte (s.pc.toNat + 2)
  regs := s.regs

/-- What the cycle that starts in `s` passes to the trace port: one snapshot, before the fetch, when the trace is enabled
and the machine Running (R81, R82). -/
def State.tracePort (enabled : Bool) (s : State) : Option Snapshot :=
  match enabled, s.status with
  | true, .running => some s.snapshot
  | true, .halted => none
  | true, .faulted _ => none
  | false, _ => none

/-- The snapshots of the first `k` cycles from `s`, in order (R82). -/
def traceOfRun (enabled : Bool) : Nat → State → List Snapshot
  | 0, _ => []
  | k + 1, s =>
    (s.tracePort enabled).toList ++
      match step s with
      | .next t => traceOfRun enabled k t
      | .fault _ => []
      | .refused _ => []

/-- The trace of this machine: with the open parameter `trace_enabled` (00_scope.md R6, decision D12; log 10). -/
def machineTrace (k : Nat) (s : State) : List Snapshot :=
  traceOfRun Config.traceEnabled k s

/-! ### Text (41_load_and_output.md R101, 30_encoding.md R72) -/

/-- The decimal digits of a byte, most significant first, no sign and no leading zeros (R101). -/
def decimalText (v : Byte) : String :=
  String.ofList (Nat.toDigits 10 v.toNat)

/-- What the host shows for the bytes PRN emitted: each as its decimal digits on one line, ended by a line feed (R101,
10_state.md R36, decision D11; log 16). -/
def renderOutput (out : List Byte) : String :=
  String.join (out.map fun v => decimalText v ++ "\n")

/-- The mnemonic as the spec writes it (30_encoding.md R72). -/
def mnemonicText : Mnemonic → String
  | .ldi => "LDI"
  | .prn => "PRN"
  | .hlt => "HLT"
  | .mul => "MUL"
  | .add => "ADD"
  | .sub => "SUB"
  | .push => "PUSH"
  | .pop => "POP"

/-- A register written `R0` to `R7` (R72). -/
def regText (b : Byte) : String :=
  "R" ++ decimalText b

/-- The operands of an instruction in assembly, in the order of the encoding (R72). -/
def operandTexts : Instr → List String
  | .ldi r imm => [regText r, decimalText imm]
  | .prn r => [regText r]
  | .hlt => []
  | .mul a b => [regText a, regText b]
  | .add a b => [regText a, regText b]
  | .sub a b => [regText a, regText b]
  | .push r => [regText r]
  | .pop r => [regText r]

/-- A statement: the mnemonic, then its operands separated by a comma (R72). -/
def statementText (mnemonic : String) : List String → String
  | [] => mnemonic
  | [x] => mnemonic ++ " " ++ x
  | x :: y :: _ => mnemonic ++ " " ++ x ++ "," ++ y

/-- The assembly statement of an instruction. One whose register operand is 8 or more has none (R72, R73, decision D19;
log 17). -/
def assembly (i : Instr) : Option String :=
  if i.WellFormed then some (statementText (mnemonicText i.mnemonic) (operandTexts i)) else none

end Sys2Proof.Machine
end

