-- ==== Sys2Proof/Safety.lean ====
section
/-! DEFINITION. The words claims about runs are stated in: a stop that the memory accounts for, the invariant every step
keeps, and a run that ended normally. -/

namespace Sys2Proof.Machine

/-- The eight opcode bytes, in ascending order (30_encoding.md R66). -/
def opcodeBytes : List Byte :=
  [0x01#8, 0x45#8, 0x46#8, 0x47#8, 0x82#8, 0xA0#8, 0xA1#8, 0xA2#8]

/-- The status is one that the bytes at `pc` account for: Halted at a HLT byte (44_control.md R140); OutOfBounds with
address 256 at `pc` 253 or more (60_exceptions.md R151); InvalidRegister with an index of 8 or more that stands in an operand
byte (R152); UnknownOpcode with the illegal byte that stands at `pc` (R154); never UnsupportedALUOperation (R153). -/
def State.StopGrounded (s : State) : Prop :=
  match s.status with
  | .running => True
  | .halted => s.pc.toNat ≤ 253 ∧ s.mem.read s.pc.toNat = 0x01#8
  | .faulted (.outOfBounds addr) => addr = 256 ∧ 253 ≤ s.pc.toNat
  | .faulted (.invalidRegister i) =>
    s.pc.toNat ≤ 253 ∧ 8 ≤ i.toNat ∧ (s.mem.read (s.pc.toNat + 1) = i ∨ s.mem.read (s.pc.toNat + 2) = i)
  | .faulted (.unsupportedALUOperation _) => False
  | .faulted (.unknownOpcode op) => s.pc.toNat ≤ 253 ∧ s.mem.read s.pc.toNat = op ∧ op ∉ opcodeBytes

/-- The invariant of the machine: memory in its canonical form, and a stop only for a reason found in memory. -/
def State.Inv (s : State) : Prop :=
  s.mem.wf ∧ s.StopGrounded

/-- A run ended normally when the status is Halted (40_execution_loop.md R89). -/
def State.EndedNormally (s : State) : Prop :=
  s.status = .halted

end Sys2Proof.Machine
end

