-- ==== Sys2Proof/Certificates/Slice0/Obligations.lean ====
section
/-! DEFINITION. The statements for the provers, each about the machine of the spec and none about a program of ours. A
docstring names the rule a statement formalises, and the spec's own decision (D<n>) or the log entry where one lies under it. -/

open Sys2Proof Sys2Proof.Machine

/-! ### Encoding and decoding -/

/-- 30_encoding.md R66: eight words, one of each row, written out bit by bit. -/
def Obligations.WordsOfTheOpcodeMapDecode : Prop :=
  decode ⟨0b10000010#8, 0b00000000#8, 0b00001000#8⟩ = .ok (.ldi 0#8 8#8) ∧
  decode ⟨0b01000111#8, 0b00000010#8, 0b11111111#8⟩ = .ok (.prn 2#8) ∧
  decode ⟨0b00000001#8, 0b11111111#8, 0b11111111#8⟩ = .ok .hlt ∧
  decode ⟨0b10100010#8, 0b00000000#8, 0b00000001#8⟩ = .ok (.mul 0#8 1#8) ∧
  decode ⟨0b10100000#8, 0b00000000#8, 0b00000001#8⟩ = .ok (.add 0#8 1#8) ∧
  decode ⟨0b10100001#8, 0b00000000#8, 0b00000001#8⟩ = .ok (.sub 0#8 1#8) ∧
  decode ⟨0b01000101#8, 0b00000111#8, 0b00000000#8⟩ = .ok (.push 7#8) ∧
  decode ⟨0b01000110#8, 0b00000011#8, 0b00000000#8⟩ = .ok (.pop 3#8)

/-- Decode after encode, for EVERY instruction and every operand byte (ill-formed indices too), whatever bytes follow it in
memory: they fill the unused slots of the window (30_encoding.md R61, R66; decision D14). -/
def Obligations.DecodeOfEncodeIsTheInstruction : Prop :=
  ∀ (i : Instr) (after : List Byte), 3 ≤ (encode i ++ after).length →
    ∃ w, windowOf (encode i ++ after) = some w ∧ decode w = .ok i

/-- The other direction: a window that decodes begins with the encoding of what it decodes to (R60, R66). -/
def Obligations.DecodedWindowBeginsWithTheEncoding : Prop :=
  ∀ (w : Window) (i : Instr), decode w = .ok i → encode i <+: [w.op, w.a, w.b]

/-- 30_encoding.md R67: the decoder compares the whole opcode byte with the eight values of R66, and the operand bytes take
no part in selecting the instruction; a byte that is none of the eight selects nothing. -/
def Obligations.DecodeComparesTheWholeOpcodeByte : Prop :=
  (∀ (op a b : Byte) (i : Instr), decode ⟨op, a, b⟩ = .ok i ↔
    (op = 0x82#8 ∧ i = .ldi a b) ∨ (op = 0x47#8 ∧ i = .prn a) ∨ (op = 0x01#8 ∧ i = .hlt) ∨
    (op = 0xA2#8 ∧ i = .mul a b) ∨ (op = 0xA0#8 ∧ i = .add a b) ∨ (op = 0xA1#8 ∧ i = .sub a b) ∨
    (op = 0x45#8 ∧ i = .push a) ∨ (op = 0x46#8 ∧ i = .pop a)) ∧
  (∀ (op a b : Byte), op ∉ opcodeBytes → decode ⟨op, a, b⟩ = .error (.unknownOpcode op))

/-! ### The cycle -/

/-- The decode raises UnknownOpcode(op) for every illegal byte, and the host's diagnostic names the byte (60_exceptions.md R154,
R158). That nothing but the status changes is R85's sentence, which the spec marks as derived, with R156 and decision D18
(log 1). `pc` is at most 253, for at 254 and 255 the fetch faults and nothing is decoded, by decision D2 (log 6). The 248 illegal
byte values are counted through the decoder, 0x00 among them. -/
def Obligations.IllegalOpcodeRaisesUnknownOpcode : Prop :=
  (∀ s : State, s.status = .running → s.pc.toNat ≤ 253 → s.mem.read s.pc.toNat ∉ opcodeBytes →
    step s = .next { s with status := .faulted (.unknownOpcode (s.mem.read s.pc.toNat)) } ∧
    State.diagnostic { s with status := .faulted (.unknownOpcode (s.mem.read s.pc.toNat)) } =
      some (s.mem.read s.pc.toNat)) ∧
  (∀ s t : State, s.status = .running → step s = .next t →
    ∀ op, t.status = .faulted (.unknownOpcode op) → op = s.mem.read s.pc.toNat ∧ op ∉ opcodeBytes) ∧
  ((List.range 256).filter fun n => (decodeTableWord 8 n).isNone).length = 248 ∧
  decodeTableWord 8 0x00 = none

/-- A Running step whose window decodes runs exactly that instruction in that state (40_execution_loop.md, R83 to R88). -/
def Obligations.StepRunsTheDecodedInstruction : Prop :=
  ∀ (s : State) (i : Instr), s.status = .running → s.pc.toNat + 2 < 256 →
    decode ⟨s.mem.read s.pc.toNat, s.mem.read (s.pc.toNat + 1), s.mem.read (s.pc.toNat + 2)⟩ = .ok i →
    step s = exec i s

/-- An instruction whose own bytes stand at `pc` runs, whatever stands in the unused bytes of the window
(30_encoding.md R60, R61; decision D14). -/
def Obligations.EncodedInstructionAtPcRuns : Prop :=
  ∀ (s : State) (i : Instr), s.status = .running → s.pc.toNat + 2 < 256 →
    (∀ (k : Nat) (h : k < (encode i).length), s.mem.read (s.pc.toNat + k) = (encode i)[k]) →
    step s = exec i s

/-- The cycle at `pc` 254 or 255 raises OutOfBounds(256) before the decode and changes nothing else (40_execution_loop.md,
R84, by the spec's decision D2; log 6). -/
def Obligations.FetchPastTheTopFaults : Prop :=
  ∀ s : State, s.status = .running → 254 ≤ s.pc.toNat →
    step s = .next { s with status := .faulted (.outOfBounds 256) }

/-- A step answers a next state from every state: nothing is refused and no fault escapes the status
(10_state.md R36, 40_execution_loop.md R88; the spec's decision D18, log 1 and 14). -/
def Obligations.EveryStepAnswersANextState : Prop :=
  ∀ s : State, ∃ t : State, step s = .next t

/-- 60_exceptions.md R155 and R168: a run that left Running never goes on, all state staying as it was; and every fault that is
raised leaves it. -/
def Obligations.StoppedMachineNeverWakes : Prop :=
  (∀ (s : State) (k : Nat), s.status ≠ .running → Sys2Proof.core.run k s = .next s) ∧
  (∀ (s : State) (f : Fault) (k : Nat), ∃ t : State, s.raise f = .next t ∧ Sys2Proof.core.run k t = .next t)

/-- Within a cycle the first check that fails is the one reported: the fetch, the decode, register A, register B, the advance;
with none failing, HLT halts and the others stay Running (60_exceptions.md R159; decisions D2, D3, D8; log 6, 7, 9). -/
def Obligations.FirstFailingCheckIsReported : Prop :=
  ∀ s t : State, s.status = .running → step s = .next t →
    t.status =
      if 254 ≤ s.pc.toNat then .faulted (.outOfBounds 256)
      else if s.mem.read s.pc.toNat ∉ opcodeBytes then .faulted (.unknownOpcode (s.mem.read s.pc.toNat))
      else if s.mem.read s.pc.toNat = 0x01#8 then .halted
      else if 8 ≤ (s.mem.read (s.pc.toNat + 1)).toNat then .faulted (.invalidRegister (s.mem.read (s.pc.toNat + 1)))
      else if s.mem.read s.pc.toNat ∈ [0xA0#8, 0xA1#8, 0xA2#8] ∧ 8 ≤ (s.mem.read (s.pc.toNat + 2)).toNat then
        .faulted (.invalidRegister (s.mem.read (s.pc.toNat + 2)))
      else if s.mem.read s.pc.toNat ∈ [0x82#8, 0xA0#8, 0xA1#8, 0xA2#8] ∧ s.pc.toNat = 253 then
        .faulted (.outOfBounds 256)
      else .running

/-- Faults are precise except for PUSH's decrement and the register write before a faulting advance (60_exceptions.md R157;
decision D7, log 8: a claim about hardware should read only status and `out` after a fault, R89). -/
def Obligations.FaultsArePreciseExceptTwoCases : Prop :=
  ∀ (s t : State) (f : Fault), s.status = .running → step s = .next t → t.status = .faulted f →
    t = { s with status := .faulted f } ∨
    (s.mem.read s.pc.toNat = 0x45#8 ∧ 8 ≤ (s.mem.read (s.pc.toNat + 1)).toNat ∧
      t = { s with regs := s.regs.set 7 (s.regs[7] - 1#8), status := .faulted f }) ∨
    (s.mem.read s.pc.toNat ∈ [0x82#8, 0xA0#8, 0xA1#8, 0xA2#8] ∧ s.pc.toNat = 253 ∧ f = .outOfBounds 256 ∧
      ∃ (v : Byte) (h : (s.mem.read (s.pc.toNat + 1)).toNat < 8),
        t = { s with regs := s.regs.set (s.mem.read (s.pc.toNat + 1)).toNat v h, status := .faulted f })

/-- `pc` changes only by the length of the instruction run, forward, and only while the machine stays Running
(10_state.md R28, 44_control.md R141, 30_encoding.md R66). That it never wraps, and is kept where the advance or the fetch
faults, is R87 by decision D3 (log 7) and R84 by decision D2 (log 6). -/
def Obligations.PcMovesOnlyByTheInstructionLength : Prop :=
  ∀ s t : State, s.status = .running → step s = .next t →
    (t.status = .running → ∃ i : Instr,
      decode ⟨s.mem.read s.pc.toNat, s.mem.read (s.pc.toNat + 1), s.mem.read (s.pc.toNat + 2)⟩ = .ok i ∧
      t.pc.toNat = s.pc.toNat + i.length ∧ 2 ≤ i.length ∧ i.length ≤ 3) ∧
    (t.status ≠ .running → t.pc = s.pc)

/-- The machine halts at a HLT byte that can be fetched, and at nothing else (44_control.md R140, 40_execution_loop.md R84;
decision D2). -/
def Obligations.HaltsExactlyAtAFetchedHlt : Prop :=
  ∀ s t : State, s.status = .running → step s = .next t →
    (t.status = .halted ↔ s.pc.toNat ≤ 253 ∧ s.mem.read s.pc.toNat = 0x01#8)

/-- From any `pc`, a run of k + 1 cycles with pc + 2k at least 254 has ended; so every run ends within 128 cycles, and every
program may be run under that fuel (40_execution_loop.md R91, an inference the spec marks as derived). -/
def Obligations.EveryRunEndsWithin128Cycles : Prop :=
  (∀ (s : State) (k : Nat), 254 ≤ s.pc.toNat + 2 * k →
    ∃ t : State, Sys2Proof.core.run (k + 1) s = .next t ∧ t.status ≠ .running) ∧
  (∀ s : State, ∃ t : State, Sys2Proof.core.run 128 s = .next t ∧ t.status ≠ .running)

/-! ### Whole-machine frames -/

/-- No instruction writes or reads FL, and no output shows it (10_state.md R30, 42_alu.md R112): a step keeps it, and
a state with another FL steps to the same state but for FL, with the same trace, exit status and diagnostic. -/
def Obligations.FlagsRegisterIsNeitherReadNorWritten : Prop :=
  ∀ (s t : State) (v : Byte), step s = .next t →
    t.fl = s.fl ∧ step { s with fl := v } = .next { t with fl := v } ∧
    (∀ enabled, State.tracePort enabled { s with fl := v } = s.tracePort enabled) ∧
    State.exitStatus { s with fl := v } = s.exitStatus ∧ State.diagnostic { s with fl := v } = s.diagnostic

/-- A byte of memory changes only under a PUSH, and only at the new stack pointer (20_memory.md R45). -/
def Obligations.MemoryChangesOnlyAtThePushedCell : Prop :=
  ∀ (s t : State) (x : Nat), step s = .next t → t.mem.read x ≠ s.mem.read x →
    s.status = .running ∧ s.mem.read s.pc.toNat = 0x45#8 ∧ x = t.regs[7].toNat ∧ t.regs[7] = s.regs[7] - 1#8

/-- A register changes only as the named destination of LDI, ADD, SUB, MUL or POP, or as the stack pointer of PUSH or POP;
IM (R5) and IS (R6) are no exception (10_state.md R23, R25). -/
def Obligations.RegistersChangeOnlyWhereNamed : Prop :=
  ∀ (s t : State) (j : Fin 8), step s = .next t → t.regs[j] ≠ s.regs[j] →
    s.status = .running ∧
    ((s.mem.read s.pc.toNat ∈ [0x82#8, 0xA0#8, 0xA1#8, 0xA2#8, 0x46#8] ∧
        (s.mem.read (s.pc.toNat + 1)).toNat = j.val) ∨
      (s.mem.read s.pc.toNat ∈ [0x45#8, 0x46#8] ∧ j = 7))

/-- `out` changes only under a PRN, by the one byte of the register it names (10_state.md R32; decision D11, log 16). -/
def Obligations.OutputGrowsOnlyByPrn : Prop :=
  ∀ s t : State, step s = .next t → t.out ≠ s.out →
    s.status = .running ∧ s.mem.read s.pc.toNat = 0x47#8 ∧
    ∃ h : (s.mem.read (s.pc.toNat + 1)).toNat < 8, t.out = s.out ++ [s.regs[(s.mem.read (s.pc.toNat + 1)).toNat]]

/-! ### The invariant, reset and the image load -/

/-- Every step keeps the invariant `State.Inv`. Its first half, the canonical form of the memory list (`Memory.wf`), is the
model's own DESIGN CHOICE, log 21. Its second half says that a stop is one the memory accounts for (`State.StopGrounded`:
44_control.md R140, 60_exceptions.md R151 to R154); the bounds in it, OutOfBounds with address 256 at `pc` 253 or more and every
other stop at 253 or less, are the spec's decisions D2 and D3 (log 6 and 7). -/
def Obligations.EveryStepKeepsTheInvariant : Prop :=
  ∀ s t : State, s.Inv → step s = .next t → t.Inv

/-- The state after reset meets the invariant of `EveryStepKeepsTheInvariant`: its memory, all cells cleared (10_state.md R35,
decision D17, log 5), is the empty list, which is in the canonical form, the model's own DESIGN CHOICE, log 21; and it is
Running. -/
def Obligations.ResetMeetsTheInvariant : Prop :=
  State.reset.Inv

/-- The reset values of 10_state.md R35, with the empty image. FL = 0 is the spec's decision D5 (log 2) and the cleared memory
its decision D17 (log 5). -/
def Obligations.ResetLeavesTheStatedValues : Prop :=
  (∀ j : Fin 8, State.reset.regs[j] = if j = 7 then 0xF4#8 else 0x00#8) ∧
  State.reset.pc = 0x00#8 ∧ State.reset.fl = 0x00#8 ∧ State.reset.status = .running ∧ State.reset.out = [] ∧
  ∀ a : Nat, State.reset.mem.read a = 0x00#8

/-- An image of at most 256 bytes stands in memory from address 0 with every other cell 0, everything else as after reset, and
the invariant holds, whose canonical form of the memory list is the model's own DESIGN CHOICE, log 21; a longer image does not
load, with OutOfBounds(256) (70_reset_and_hazards.md R181; decisions D13 and D17; log 5 and 15). -/
def Obligations.ImageLoadPlacesTheImage : Prop :=
  (∀ image : List Byte, image.length ≤ 256 → ∃ m : Memory,
    loadImage image = .next { State.reset with mem := m } ∧
    (∀ a : Nat, m.read a = image.getD a 0x00#8) ∧ State.Inv { State.reset with mem := m }) ∧
  (∀ image : List Byte, 256 < image.length → loadImage image = .fault (.outOfBounds 256))

/-- The host's placing of an opcode-table word: the very next step runs the instruction the decoder reads from the word (the
model's own interface, log 13). -/
def Obligations.PlacedTableWordIsTheNextInstruction : Prop :=
  ∀ (s : State) (nbits w : Nat) (i : Instr), s.mem.wf → decodeTableWord nbits w = some i →
    step (s.withFetchWord nbits w) = exec i (s.withFetchWord nbits w)

/-! ### Primitives -/

/-- 10_state.md R21: a register access with index below 8 reads or writes that register, one with 8 or more raises
InvalidRegister and writes nothing; taken, the fault is fatal. -/
def Obligations.RegisterAccessContract : Prop :=
  ∀ (s : State) (i v : Byte),
    (∀ h : i.toNat < 8, s.readReg i = .ok s.regs[i.toNat] ∧
      s.writeReg i v = .ok { s with regs := s.regs.set i.toNat v h }) ∧
    (8 ≤ i.toNat → s.readReg i = .error (.invalidRegister i) ∧ s.writeReg i v = .error (.invalidRegister i)) ∧
    (∀ t : State, s.raise (.invalidRegister i) = .next t → step t = .next t)

/-- A write below 256 changes that one cell and nothing else, one at 256 or more raises OutOfBounds and writes nothing
(20_memory.md R42); the read has the same bound (R41). That the memory list is in its canonical form before, and still is
after, is the model's own DESIGN CHOICE, log 21. -/
def Obligations.MemoryAccessContract : Prop :=
  ∀ (s : State) (a : Nat) (v : Byte), s.mem.wf →
    (a ≤ 255 → s.memRead a = .ok (s.mem.read a) ∧ ∃ m : Memory,
      s.memWrite a v = .ok { s with mem := m } ∧ m.wf ∧ m.read a = v ∧ ∀ x, x ≠ a → m.read x = s.mem.read x) ∧
    (256 ≤ a → s.memRead a = .error (.outOfBounds a) ∧ s.memWrite a v = .error (.outOfBounds a))

/-- 42_alu.md R111 and R112: whatever the tag, an ALU operation that completes writes register `a` and nothing else: no other
register, no memory, not `pc`, no output, no flag. -/
def Obligations.AluWritesOnlyRegisterA : Prop :=
  ∀ (tag : AluTag) (a b : Byte) (s t : State), alu tag a b s = .ok t →
    ∃ (h : a.toNat < 8) (v : Byte), t = { s with regs := s.regs.set a.toNat v h }

/-- The ALU refuses any other tag with UnsupportedALUOperation, and no cycle ever raises it (60_exceptions.md R153, 42_alu.md
R117, an inference the spec marks as derived; log 12). -/
def Obligations.UnsupportedALUOperationIsUnreachable : Prop :=
  (∀ (n : Nat) (a b : Byte) (s : State), a.toNat < 8 → b.toNat < 8 →
    alu (.other n) a b s = .error (.unsupportedALUOperation (.other n))) ∧
  (∀ (s t : State) (tag : AluTag), s.status = .running → step s = .next t →
    t.status ≠ .faulted (.unsupportedALUOperation tag))

/-- Read as two's complement, the bytes ADD, SUB and MUL leave are the signed results wrapped to eight bits (42_alu.md R116, an
inference the spec marks as derived). -/
def Obligations.SignedReadingOfTheAluAgrees : Prop :=
  ∀ (a b : Byte) (s t : State) (ha : a.toNat < 8) (hb : b.toNat < 8),
    (alu .add a b s = .ok t →
      t.regs[a.toNat].toInt = ((s.regs[a.toNat]).toInt + (s.regs[b.toNat]).toInt).bmod 256) ∧
    (alu .sub a b s = .ok t →
      t.regs[a.toNat].toInt = ((s.regs[a.toNat]).toInt - (s.regs[b.toNat]).toInt).bmod 256) ∧
    (alu .mul a b s = .ok t →
      t.regs[a.toNat].toInt = ((s.regs[a.toNat]).toInt * (s.regs[b.toNat]).toInt).bmod 256)

/-! ### What each instruction does: its completion, its result and its frame -/

/-- LDI (41_load_and_output.md, R100): the immediate in register `a`, `pc` on by 3, nothing else changed; `a` = 7 moves SP. -/
def Obligations.LdiLoadsTheImmediate : Prop :=
  ∀ (a imm : Byte) (s : State) (ha : a.toNat < 8), s.pc.toNat + 3 < 256 →
    exec (.ldi a imm) s = .next { s with regs := s.regs.set a.toNat imm ha, pc := s.pc + 3#8 }

/-- PRN (41_load_and_output.md, R101): the register's byte appended to `out`, `pc` on by 2, nothing else changed. -/
def Obligations.PrnEmitsTheRegister : Prop :=
  ∀ (a : Byte) (s : State) (_ : a.toNat < 8), s.pc.toNat + 2 < 256 →
    exec (.prn a) s = .next { s with out := s.out ++ [s.regs[a.toNat]], pc := s.pc + 2#8 }

/-- ADD (42_alu.md, R113): `x[a] <- (x[a] + x[b]) mod 256`, `pc` on by 3, nothing else changed; `a = b` doubles. -/
def Obligations.AddIsModulo256 : Prop :=
  ∀ (a b : Byte) (s : State) (ha : a.toNat < 8) (_ : b.toNat < 8), s.pc.toNat + 3 < 256 →
    ∃ r : Byte, r.toNat = ((s.regs[a.toNat]).toNat + (s.regs[b.toNat]).toNat) % 256 ∧
      exec (.add a b) s = .next { s with regs := s.regs.set a.toNat r ha, pc := s.pc + 3#8 }

/-- SUB (42_alu.md, R114): `x[a] <- (x[a] - x[b]) mod 256`, register A minus register B, `pc` on by 3, nothing else changed. -/
def Obligations.SubIsModulo256 : Prop :=
  ∀ (a b : Byte) (s : State) (ha : a.toNat < 8) (_ : b.toNat < 8), s.pc.toNat + 3 < 256 →
    ∃ r : Byte, (r.toNat : Int) = (((s.regs[a.toNat]).toNat : Int) - ((s.regs[b.toNat]).toNat : Int)) % 256 ∧
      exec (.sub a b) s = .next { s with regs := s.regs.set a.toNat r ha, pc := s.pc + 3#8 }

/-- MUL (42_alu.md, R115): `x[a] <- (x[a] * x[b]) mod 256`, the low byte of the product, `pc` on by 3, nothing else changed. -/
def Obligations.MulIsModulo256 : Prop :=
  ∀ (a b : Byte) (s : State) (ha : a.toNat < 8) (_ : b.toNat < 8), s.pc.toNat + 3 < 256 →
    ∃ r : Byte, r.toNat = ((s.regs[a.toNat]).toNat * (s.regs[b.toNat]).toNat) % 256 ∧
      exec (.mul a b) s = .next { s with regs := s.regs.set a.toNat r ha, pc := s.pc + 3#8 }

/-- PUSH (43_stack.md, R130, R133; decisions D4 and D7; log 4 and 8): R7 down by 1 modulo 256, the byte of register `a` as it is
AFTER the decrement stored at the new R7, `pc` on by 2; every other byte of memory and everything else unchanged. -/
def Obligations.PushStoresBelowTheStackPointer : Prop :=
  ∀ (a : Byte) (s : State) (_ : a.toNat < 8), s.mem.wf → s.pc.toNat + 2 < 256 →
    ∃ m : Memory,
      exec (.push a) s = .next { s with
        regs := s.regs.set 7 (s.regs[7] - 1#8), pc := s.pc + 2#8, mem := m } ∧
      m.read (s.regs[7] - 1#8).toNat = (s.regs.set 7 (s.regs[7] - 1#8))[a.toNat] ∧
      ∀ x, x ≠ (s.regs[7] - 1#8).toNat → m.read x = s.mem.read x

/-- POP (43_stack.md, R131, R133; decisions D4 and D7; log 4 and 8): the byte at R7 in register `a`, THEN R7 up by 1 modulo 256
(for `a` = 7 the loaded byte plus 1), `pc` on by 2; all of memory and everything else unchanged. -/
def Obligations.PopLoadsAtTheStackPointer : Prop :=
  ∀ (a : Byte) (s : State) (ha : a.toNat < 8), s.pc.toNat + 2 < 256 →
    exec (.pop a) s = .next { s with
      regs := (s.regs.set a.toNat (s.mem.read s.regs[7].toNat) ha).set 7
        ((s.regs.set a.toNat (s.mem.read s.regs[7].toNat) ha)[7] + 1#8)
      pc := s.pc + 2#8 }

/-- 44_control.md R140: HLT, one byte 0x01 with unused operands, sets Halted and changes nothing else; after it no cycle and no
snapshot, nothing wakes it, and the exit status is 0; at 254 or 255 it never runs. -/
def Obligations.HltStopsAndChangesNothing : Prop :=
  encode .hlt = [0x01#8] ∧ (∀ a b : Byte, decode ⟨0x01#8, a, b⟩ = .ok .hlt) ∧
  (∀ s : State, exec .hlt s = .next { s with status := .halted } ∧
    (∀ k, Sys2Proof.core.run k ({ s with status := .halted } : State) = .next { s with status := .halted }) ∧
    (∀ enabled, State.tracePort enabled { s with status := .halted } = none) ∧
    State.exitStatus { s with status := .halted } = some 0) ∧
  (∀ s : State, s.status = .running → 254 ≤ s.pc.toNat → s.mem.read s.pc.toNat = 0x01#8 →
    step s = .next { s with status := .faulted (.outOfBounds 256) })

/-- A register operand of 8 or more in LDI, PRN, POP, ADD, SUB or MUL takes InvalidRegister with that index and changes nothing
but the status; of two, register A's is reported (60_exceptions.md R152, R159; the order is decision D8, log 9). -/
def Obligations.InvalidRegisterIsTakenWithNoEffect : Prop :=
  ∀ (a b : Byte) (s : State),
    (8 ≤ a.toNat → ∀ i ∈ [Instr.ldi a b, .prn a, .pop a, .add a b, .sub a b, .mul a b],
      exec i s = .next { s with status := .faulted (.invalidRegister a) }) ∧
    (a.toNat < 8 → 8 ≤ b.toNat → ∀ i ∈ [Instr.add a b, .sub a b, .mul a b],
      exec i s = .next { s with status := .faulted (.invalidRegister b) })

/-- PUSH with an index of 8 or more takes InvalidRegister after R7 was decremented; the decrement stays and memory is unchanged
(43_stack.md R130, decision D7, log 8: a claim about hardware should read only status and `out` after a fault, R89). -/
def Obligations.PushOfNoRegisterKeepsTheDecrement : Prop :=
  ∀ (a : Byte) (s : State), 8 ≤ a.toNat →
    exec (.push a) s = .next { s with
      regs := s.regs.set 7 (s.regs[7] - 1#8), status := .faulted (.invalidRegister a) }

/-- Where the advance would leave memory, LDI, ADD, SUB, MUL, PRN, PUSH and POP take OutOfBounds(pc + length) after their effects,
`pc` kept (40_execution_loop.md R87, decision D3; log 7 and 8). Only a 3-byte instruction at 253 is reached by a step (log 20). -/
def Obligations.AdvancePastTheTopFaults : Prop :=
  ∀ (i : Instr) (s : State), i.WellFormed → i ≠ .hlt → 256 ≤ s.pc.toNat + i.length →
    ∃ u t : State, exec i { s with pc := 0#8 } = .next u ∧ u.status = s.status ∧ exec i s = .next t ∧
      t = { u with pc := s.pc, status := .faulted (.outOfBounds (s.pc.toNat + i.length)) }

/-- Every well-formed instruction but HLT runs without a fault where its advance stays in memory: the status is kept and `pc`
moves by its length (40_execution_loop.md R87; 60_exceptions.md R163, by decision D15, log 22: no mode, no privilege). That PUSH
at SP 0 and POP at SP 0xFF complete too is decision D4 (log 4). HLT has `HltStopsAndChangesNothing`, and the states where the
advance leaves memory have `AdvancePastTheTopFaults`. -/
def Obligations.WellFormedNonHltCompletesWhereItsAdvanceFits : Prop :=
  ∀ (i : Instr) (s : State), i.WellFormed → i ≠ .hlt → s.pc.toNat + i.length < 256 →
    ∃ t : State, exec i s = .next t ∧ t.status = s.status ∧ t.pc.toNat = s.pc.toNat + i.length ∧ t.fl = s.fl

/-! ### Instructions together -/

/-- LDI r, v then PRN r, fetched from memory, emit v (41_load_and_output.md R102, an inference the spec marks as derived). -/
def Obligations.LdiThenPrnEmitsTheImmediate : Prop :=
  ∀ (s : State) (r v : Byte), s.status = .running → r.toNat < 8 → s.pc.toNat ≤ 250 →
    s.mem.read s.pc.toNat = 0x82#8 → s.mem.read (s.pc.toNat + 1) = r → s.mem.read (s.pc.toNat + 2) = v →
    s.mem.read (s.pc.toNat + 3) = 0x47#8 → s.mem.read (s.pc.toNat + 4) = r →
    ∃ t : State, Sys2Proof.core.run 2 s = .next t ∧ t.out = s.out ++ [v] ∧ t.status = .running

/-- PUSH a, then, in any later state that kept R7 and the pushed cell, POP a: the register and the stack pointer are back, for
every register (R7 too) and every SP (43_stack.md R132, R133; decision D4; an inference the spec marks as derived). -/
def Obligations.PushThenPopRestores : Prop :=
  ∀ (a : Byte) (s t m u : State) (_ : a.toNat < 8), s.mem.wf → s.pc.toNat + 2 < 256 →
    exec (.push a) s = .next t → m.regs[7] = t.regs[7] → m.mem.read t.regs[7].toNat = t.mem.read t.regs[7].toNat →
    m.pc.toNat + 2 < 256 → exec (.pop a) m = .next u →
    u.regs[a.toNat] = s.regs[a.toNat] ∧ u.regs[7] = s.regs[7]

/-- Whatever byte a PUSH stores in one of the three cells after it, the next cycle's fetch holds it in that slot of its window,
opcode or operand, and the other two slots hold what memory held before (20_memory.md R53, 70_reset_and_hazards.md R185, by the
spec's decision D20, log 18; the stored byte and the stack pointer by D4 and D7, log 4 and 8). Slot k is the cell at pc + 2 + k;
with pc + 2 above 253 no window is fetched (D2, log 6). Memory is in the canonical form of the model's own choice, log 21. -/
def Obligations.PushedByteIsFetchedByTheNextCycle : Prop :=
  ∀ (s : State) (a : Byte) (k : Nat) (_ : a.toNat < 8), s.status = .running → s.mem.wf → s.pc.toNat + 2 ≤ 253 → k < 3 →
    s.mem.read s.pc.toNat = 0x45#8 → s.mem.read (s.pc.toNat + 1) = a →
    (s.regs[7] - 1#8).toNat = s.pc.toNat + 2 + k →
    ∃ (t : State) (w : Window), step s = .next t ∧ t.status = .running ∧ t.pc.toNat = s.pc.toNat + 2 ∧
      fetch t = .ok w ∧ [w.op, w.a, w.b][k]? = some (s.regs.set 7 (s.regs[7] - 1#8))[a.toNat] ∧
      ∀ j, j < 3 → j ≠ k → [w.op, w.a, w.b][j]? = some (s.mem.read (s.pc.toNat + 2 + j))

/-! ### The host's side -/

/-- The exit status: none while Running, 0 after Halted, 1 after UnknownOpcode, not 0 after any other fault
(60_exceptions.md R158; the other values are open, decision D10, log 11). -/
def Obligations.ExitStatusSaysHowTheRunEnded : Prop :=
  ∀ s : State,
    (s.status = .running → s.exitStatus = none) ∧
    (s.EndedNormally → s.exitStatus = some 0) ∧
    (∀ op, s.status = .faulted (.unknownOpcode op) → s.exitStatus = some 1) ∧
    (∀ f, s.status = .faulted f → ∃ n, s.exitStatus = some n ∧ n ≠ 0)

/-- The trace of the first k cycles, all of them Running: with the trace enabled one snapshot a cycle, the j-th showing `pc`, the
three bytes at `pc` (absent from 256 up) and the registers of the state that cycle starts in; with it disabled none
(40_execution_loop.md R82; decision D12; log 10). -/
def Obligations.TraceShowsOneSnapshotPerCycle : Prop :=
  ∀ (s : State) (k : Nat),
    (∀ j < k, ∃ u : State, Sys2Proof.core.run j s = .next u ∧ u.status = .running) →
    (traceOfRun true k s).length = k ∧ traceOfRun false k s = [] ∧
    ∀ (j : Nat) (u : State), j < k → Sys2Proof.core.run j s = .next u →
      ∃ n : Snapshot, (traceOfRun true k s)[j]? = some n ∧ n.pc = u.pc ∧ n.regs = u.regs ∧
        n.byte0 = some (u.mem.read u.pc.toNat) ∧
        n.byte1 = (if u.pc.toNat + 1 < 256 then some (u.mem.read (u.pc.toNat + 1)) else none) ∧
        n.byte2 = (if u.pc.toNat + 2 < 256 then some (u.mem.read (u.pc.toNat + 2)) else none)

/-- A PRN byte is shown as its unsigned decimal digits with no leading zeros (41_load_and_output.md R101, decision D11; log 16). -/
def Obligations.PrnTextIsUnsignedDecimal : Prop :=
  ∀ v : Byte, (decimalText v).toList =
    if v.toNat < 10 then [Char.ofNat (48 + v.toNat)]
    else if v.toNat < 100 then [Char.ofNat (48 + v.toNat / 10), Char.ofNat (48 + v.toNat % 10)]
    else [Char.ofNat (48 + v.toNat / 100), Char.ofNat (48 + v.toNat / 10 % 10), Char.ofNat (48 + v.toNat % 10)]
end

