-- ==== Sys2Proof/Laws/Decode.lean ====
section
/-! SUPPORT. What the opcode lookup and the decoder can answer. -/

namespace Sys2Proof

/-- Each mnemonic is found by its own opcode byte. -/
theorem lookupOpcode_row (m : Mnemonic) : lookupOpcode m.row.opcode = some m := by
  cases m <;> decide

/-- A mnemonic that is found has the opcode looked up: nothing is found by part of a byte (30_encoding.md R67). -/
theorem row_opcode_of_lookup {op : Byte} {m : Mnemonic} (h : lookupOpcode op = some m) : m.row.opcode = op := by
  have := List.find?_some h
  simpa using this

/-- All that decoding can answer. -/
theorem decode_ok_iff {w : Window} {i : Instr} :
    decode w = .ok i ↔ ∃ m : Mnemonic, m.row.opcode = w.op ∧ i = m.build w.a w.b := by
  constructor
  · intro h
    unfold decode at h
    split at h
    · next m hm =>
      cases h
      exact ⟨m, row_opcode_of_lookup hm, rfl⟩
    · cases h
  · rintro ⟨m, hm, rfl⟩
    simp [decode, ← hm, lookupOpcode_row]

theorem decode_error_iff {w : Window} {e : Reject} :
    decode w = .error e ↔ lookupOpcode w.op = none ∧ e = .unknownOpcode w.op := by
  unfold decode
  cases lookupOpcode w.op with
  | none => simp [eq_comm]
  | some m => simp

end Sys2Proof
end

