-- ==== Sys2Proof/Laws/Ops.lean ====
section
/-! SUPPORT. What each shared operation can answer, said once: provers cite these and do not unfold the operations. -/

namespace Sys2Proof.Machine

/-! ### Operands and registers -/

theorem regOperand_of_lt {b : Byte} (h : b.toNat < 8) : regOperand b = .ok ⟨b.toNat, h⟩ := by
  simp [regOperand, h]

theorem regOperand_of_ge {b : Byte} (h : 8 ≤ b.toNat) : regOperand b = .error (.invalidRegister b) := by
  simp [regOperand, Nat.not_lt.mpr h]

theorem State.readReg_of_lt (s : State) {b : Byte} (h : b.toNat < 8) : s.readReg b = .ok (s.reg ⟨b.toNat, h⟩) := by
  simp [State.readReg, regOperand_of_lt h]

theorem State.readReg_of_ge (s : State) {b : Byte} (h : 8 ≤ b.toNat) :
    s.readReg b = .error (.invalidRegister b) := by
  simp [State.readReg, regOperand_of_ge h]

theorem State.writeReg_of_lt (s : State) {b : Byte} (v : Byte) (h : b.toNat < 8) :
    s.writeReg b v = .ok (s.setReg ⟨b.toNat, h⟩ v) := by
  simp [State.writeReg, regOperand_of_lt h]

theorem State.writeReg_of_ge (s : State) {b : Byte} (v : Byte) (h : 8 ≤ b.toNat) :
    s.writeReg b v = .error (.invalidRegister b) := by
  simp [State.writeReg, regOperand_of_ge h]

/-- All that a register write can answer. -/
theorem State.writeReg_cases (s : State) (b v : Byte) :
    (∃ h : b.toNat < 8, s.writeReg b v = .ok (s.setReg ⟨b.toNat, h⟩ v)) ∨
      (8 ≤ b.toNat ∧ s.writeReg b v = .error (.invalidRegister b)) := by
  by_cases h : b.toNat < 8
  · exact .inl ⟨h, s.writeReg_of_lt v h⟩
  · exact .inr ⟨Nat.not_lt.mp h, s.writeReg_of_ge v (Nat.not_lt.mp h)⟩

/-! ### Memory primitives -/

theorem State.memRead_of_lt (s : State) {a : Nat} (h : a < 256) : s.memRead a = .ok (s.mem.read a) := by
  simp [State.memRead, h]

theorem State.memRead_of_ge (s : State) {a : Nat} (h : 256 ≤ a) : s.memRead a = .error (.outOfBounds a) := by
  simp [State.memRead, Nat.not_lt.mpr h]

theorem State.memWrite_of_lt (s : State) {a : Nat} (v : Byte) (h : a < 256) :
    s.memWrite a v = .ok { s with mem := s.mem.write a v } := by
  simp [State.memWrite, h]

theorem State.memWrite_of_ge (s : State) {a : Nat} (v : Byte) (h : 256 ≤ a) :
    s.memWrite a v = .error (.outOfBounds a) := by
  simp [State.memWrite, Nat.not_lt.mpr h]

/-- A stack address never faults (43_stack.md R133). -/
theorem State.memRead_byte (s : State) (b : Byte) : s.memRead b.toNat = .ok (s.mem.read b.toNat) :=
  s.memRead_of_lt b.isLt

theorem State.memWrite_byte (s : State) (b v : Byte) :
    s.memWrite b.toNat v = .ok { s with mem := s.mem.write b.toNat v } :=
  s.memWrite_of_lt v b.isLt

/-! ### Arithmetic -/

theorem narrow_add (x y : Byte) : narrow ((x.toNat : Int) + (y.toNat : Int)) = x + y := by
  simp [narrow, BitVec.ofInt_add]

theorem narrow_mul (x y : Byte) : narrow ((x.toNat : Int) * (y.toNat : Int)) = x * y := by
  simp [narrow, BitVec.ofInt_mul]

theorem narrow_sub (x y : Byte) : narrow ((x.toNat : Int) - (y.toNat : Int)) = x - y := by
  simp [narrow, Int.sub_eq_add_neg, BitVec.ofInt_add, BitVec.ofInt_neg, BitVec.sub_eq_add_neg]

/-- The decrement of PUSH (43_stack.md R133). -/
theorem narrow_pred (x : Byte) : narrow ((x.toNat : Int) - 1) = x - 1 := by
  simpa using narrow_sub x 1

/-- The increment of POP (R133). -/
theorem narrow_succ (x : Byte) : narrow ((x.toNat : Int) + 1) = x + 1 := by
  simpa using narrow_add x 1

/-! ### Raising, going on, advancing -/

theorem State.raise_eq (s : State) (f : Fault) : s.raise f = .next { s with status := .faulted f } := rfl

@[simp] theorem orRaise_ok {α : Type} (v : α) (s : State) (k : α → Result) : orRaise (.ok v) s k = k v := rfl

@[simp] theorem orRaise_error {α : Type} (f : Fault) (s : State) (k : α → Result) :
    orRaise (.error f) s k = s.raise f := rfl

theorem State.advance_of_lt (s : State) {len : Nat} (h : s.pc.toNat + len < 256) :
    s.advance len = .next { s with pc := BitVec.ofNat 8 (s.pc.toNat + len) } := by
  simp [State.advance, h]

theorem State.advance_of_ge (s : State) {len : Nat} (h : 256 ≤ s.pc.toNat + len) :
    s.advance len = .next { s with status := .faulted (.outOfBounds (s.pc.toNat + len)) } := by
  simp [State.advance, Nat.not_lt.mpr h, State.raise]

/-- All that an advance can answer. -/
theorem State.advance_cases {s t : State} {len : Nat} (h : s.advance len = .next t) :
    (s.pc.toNat + len < 256 ∧ t = { s with pc := BitVec.ofNat 8 (s.pc.toNat + len) }) ∨
      (256 ≤ s.pc.toNat + len ∧ t = { s with status := .faulted (.outOfBounds (s.pc.toNat + len)) }) := by
  by_cases hl : s.pc.toNat + len < 256
  · rw [s.advance_of_lt hl] at h
    cases h
    exact .inl ⟨hl, rfl⟩
  · rw [s.advance_of_ge (Nat.not_lt.mp hl)] at h
    cases h
    exact .inr ⟨Nat.not_lt.mp hl, rfl⟩

/-! ### The ALU -/

/-- The ALU on two registers that exist, with a result. -/
theorem alu_of_lt {tag : AluTag} {a b r : Byte} (s : State) (ha : a.toNat < 8) (hb : b.toNat < 8)
    (hr : aluResult tag (s.reg ⟨a.toNat, ha⟩) (s.reg ⟨b.toNat, hb⟩) = .ok r) :
    alu tag a b s = .ok (s.setReg ⟨a.toNat, ha⟩ r) := by
  simp [alu, s.readReg_of_lt ha, s.readReg_of_lt hb, hr, s.writeReg_of_lt r ha]

/-- Register A is checked first (42_alu.md R110, decision D8). -/
theorem alu_of_bad_a {tag : AluTag} {a b : Byte} (s : State) (ha : 8 ≤ a.toNat) :
    alu tag a b s = .error (.invalidRegister a) := by
  simp [alu, s.readReg_of_ge ha]

theorem alu_of_bad_b {tag : AluTag} {a b : Byte} (s : State) (ha : a.toNat < 8) (hb : 8 ≤ b.toNat) :
    alu tag a b s = .error (.invalidRegister b) := by
  simp [alu, s.readReg_of_lt ha, s.readReg_of_ge hb]

end Sys2Proof.Machine
end

