-- ==== Sys2Proof/Laws/Exec.lean ====
section
/-! SUPPORT. Each meaning on register operands that exist, as its effect followed by its advance: provers cite these and do
not unfold the meanings. -/

namespace Sys2Proof.Machine

section
variable (s : State) {a b : Byte} (imm : Byte) (ha : a.toNat < 8) (hb : b.toNat < 8)

theorem execLdi_of_lt : execLdi a imm s = (s.setReg ⟨a.toNat, ha⟩ imm).advance 3 := by
  simp [execLdi, s.writeReg_of_lt imm ha, immOperand]

theorem execPrn_of_lt : execPrn a s = (s.emit (s.reg ⟨a.toNat, ha⟩)).advance 2 := by
  simp [execPrn, s.readReg_of_lt ha]

theorem execAdd_of_lt :
    execAdd a b s = (s.setReg ⟨a.toNat, ha⟩ (s.reg ⟨a.toNat, ha⟩ + s.reg ⟨b.toNat, hb⟩)).advance 3 := by
  simp [execAdd, alu_of_lt (tag := .add) s ha hb rfl, narrow_add]

theorem execSub_of_lt :
    execSub a b s = (s.setReg ⟨a.toNat, ha⟩ (s.reg ⟨a.toNat, ha⟩ - s.reg ⟨b.toNat, hb⟩)).advance 3 := by
  simp [execSub, alu_of_lt (tag := .sub) s ha hb rfl, narrow_sub]

theorem execMul_of_lt :
    execMul a b s = (s.setReg ⟨a.toNat, ha⟩ (s.reg ⟨a.toNat, ha⟩ * s.reg ⟨b.toNat, hb⟩)).advance 3 := by
  simp [execMul, alu_of_lt (tag := .mul) s ha hb rfl, narrow_mul]

/-- PUSH: the register is read after the decrement (43_stack.md R130). -/
theorem execPush_of_lt :
    execPush a s = State.advance { s.setSp (s.sp - 1) with
      mem := s.mem.write (s.sp - 1).toNat ((s.setSp (s.sp - 1)).reg ⟨a.toNat, ha⟩) } 2 := by
  simp only [execPush, narrow_pred, State.readReg_of_lt _ ha, State.memWrite_byte, orRaise_ok, State.sp_setSp]
  rfl

/-- POP: R7 is incremented after the loaded byte was written (R131). -/
theorem execPop_of_lt :
    execPop a s = State.advance
      ((s.setReg ⟨a.toNat, ha⟩ (s.mem.read s.sp.toNat)).setSp
        ((s.setReg ⟨a.toNat, ha⟩ (s.mem.read s.sp.toNat)).sp + 1)) 2 := by
  simp [execPop, narrow_succ, s.writeReg_of_lt _ ha, State.memRead_byte]

end

end Sys2Proof.Machine
end

