-- ==== Sys2Proof/Laws/PerInstr.lean ====
section
/-! SUPPORT. Statements about every instruction as syntax, one lemma per constructor: the length in memory
(EncodedLength) and the opcode byte that selects it (EncodedOpcode). -/

namespace Sys2Proof.Laws

/-- An instruction's bytes are as many as the opcode map's length column says (30_encoding.md R60, R66). -/
def EncodedLength.Statement (i : Instr) : Prop :=
  (encode i).length = i.length

theorem EncodedLength.ldi (r imm : Byte) : EncodedLength.Statement (.ldi r imm) := rfl
theorem EncodedLength.prn (r : Byte) : EncodedLength.Statement (.prn r) := rfl
theorem EncodedLength.hlt : EncodedLength.Statement .hlt := rfl
theorem EncodedLength.mul (a b : Byte) : EncodedLength.Statement (.mul a b) := rfl
theorem EncodedLength.add (a b : Byte) : EncodedLength.Statement (.add a b) := rfl
theorem EncodedLength.sub (a b : Byte) : EncodedLength.Statement (.sub a b) := rfl
theorem EncodedLength.push (r : Byte) : EncodedLength.Statement (.push r) := rfl
theorem EncodedLength.pop (r : Byte) : EncodedLength.Statement (.pop r) := rfl

/-- The first byte of an instruction's encoding is looked up as its mnemonic (30_encoding.md R67). -/
def EncodedOpcode.Statement (i : Instr) : Prop :=
  (encode i).head?.bind lookupOpcode = some i.mnemonic

theorem EncodedOpcode.ldi (r imm : Byte) : EncodedOpcode.Statement (.ldi r imm) := lookupOpcode_row .ldi
theorem EncodedOpcode.prn (r : Byte) : EncodedOpcode.Statement (.prn r) := lookupOpcode_row .prn
theorem EncodedOpcode.hlt : EncodedOpcode.Statement .hlt := lookupOpcode_row .hlt
theorem EncodedOpcode.mul (a b : Byte) : EncodedOpcode.Statement (.mul a b) := lookupOpcode_row .mul
theorem EncodedOpcode.add (a b : Byte) : EncodedOpcode.Statement (.add a b) := lookupOpcode_row .add
theorem EncodedOpcode.sub (a b : Byte) : EncodedOpcode.Statement (.sub a b) := lookupOpcode_row .sub
theorem EncodedOpcode.push (r : Byte) : EncodedOpcode.Statement (.push r) := lookupOpcode_row .push
theorem EncodedOpcode.pop (r : Byte) : EncodedOpcode.Statement (.pop r) := lookupOpcode_row .pop

end Sys2Proof.Laws
end

