-- ==== Sys2Proof/Laws/Step.lean ====
section
/-! SUPPORT. What the fetch and a cycle can answer. -/

namespace Sys2Proof.Machine

/-- The window a cycle reads when its three addresses exist. -/
def windowAt (s : State) : Window :=
  ⟨s.mem.read s.pc.toNat, s.mem.read (s.pc.toNat + 1), s.mem.read (s.pc.toNat + 2)⟩

theorem fetch_of_le {s : State} (h : s.pc.toNat ≤ 253) : fetch s = .ok (windowAt s) := by
  simp [fetch, windowAt, State.memRead, show s.pc.toNat + 1 < 256 by omega, show s.pc.toNat + 2 < 256 by omega,
    show s.pc.toNat < 256 by omega]

/-- The fetch at 254 or 255 (40_execution_loop.md R84). -/
theorem fetch_of_gt {s : State} (h : 254 ≤ s.pc.toNat) : fetch s = .error (.outOfBounds 256) := by
  have hlt : s.pc.toNat < 256 := s.pc.isLt
  rcases (by omega : s.pc.toNat = 254 ∨ s.pc.toNat = 255) with h | h <;>
    simp [fetch, State.memRead, Config.memSize, h]

theorem step_running {s : State} (h : s.status = .running) :
    step s = orRaise (fetchDecode s) s fun i => exec i s := by
  simp [step, h]

theorem step_stopped {s : State} (h : s.status ≠ .running) : step s = .next s := by
  cases hs : s.status <;> simp_all [step]

/-- All that a cycle can do: nothing, a fault of the fetch, a fault of the decode, or the decoded instruction. -/
theorem step_cases {s : State} {o : Result} (h : step s = o) :
    (s.status ≠ .running ∧ o = .next s) ∨
    (s.status = .running ∧ 254 ≤ s.pc.toNat ∧ o = s.raise (.outOfBounds 256)) ∨
    (s.status = .running ∧ s.pc.toNat ≤ 253 ∧ lookupOpcode (windowAt s).op = none ∧
      o = s.raise (.unknownOpcode (windowAt s).op)) ∨
    (s.status = .running ∧ s.pc.toNat ≤ 253 ∧ ∃ m : Mnemonic, m.row.opcode = (windowAt s).op ∧
      o = exec (m.build (windowAt s).a (windowAt s).b) s) := by
  subst h
  by_cases hs : s.status = .running
  · rw [step_running hs]
    by_cases hp : 254 ≤ s.pc.toNat
    · exact .inr (.inl ⟨hs, hp, by simp [fetchDecode, fetch_of_gt hp]⟩)
    · have hp : s.pc.toNat ≤ 253 := by omega
      cases hd : decode (windowAt s) with
      | ok i =>
        obtain ⟨m, hm, rfl⟩ := decode_ok_iff.mp hd
        exact .inr (.inr (.inr ⟨hs, hp, m, hm, by simp [fetchDecode, fetch_of_le hp, hd]⟩))
      | error e =>
        obtain ⟨hn, rfl⟩ := decode_error_iff.mp hd
        exact .inr (.inr (.inl ⟨hs, hp, hn, by simp [fetchDecode, fetch_of_le hp, hd, rejectFault]⟩))
  · exact .inl ⟨hs, step_stopped hs⟩

end Sys2Proof.Machine
end

