-- ==== Sys2Proof/Tests/Slice0.lean ====
section
/-! SUPPORT. The model's own tests. Expected values come from spec/95_test_vectors.md (V<n>) or from the rule named; each is
about one step. Below them, for every statement with hypotheses, a concrete state and operands that meet them all. -/

namespace Sys2Proof.Tests

open Sys2Proof Sys2Proof.Machine

/-! ### Helpers -/

/-- The state an outcome goes on with. -/
def after : Result → Option State
  | .next t => some t
  | .fault _ => none
  | .refused _ => none

/-- The cleared memory with bytes placed from an address up. -/
def bytesAt : Nat → List Byte → Memory → Memory
  | _, [], m => m
  | a, v :: vs, m => bytesAt (a + 1) vs (m.write a v)

/-- After reset, with `pc` moved and bytes placed at it. -/
def at' (pc : Byte) (bytes : List Byte) : State :=
  { State.reset with pc := pc, mem := bytesAt pc.toNat bytes [] }

/-- The same with registers preset. -/
def withRegs (s : State) (regs : Vector Byte 8) : State :=
  { s with regs := regs }

/-- The same with one memory cell preset. -/
def withCell (s : State) (a : Nat) (v : Byte) : State :=
  { s with mem := s.mem.write a v }

def regsAfter (s : State) : Option (List Byte) :=
  (after (step s)).map fun t => t.regs.toList

def stopAfter (s : State) : Option (Status × Byte) :=
  (after (step s)).map fun t => (t.status, t.pc)

/-! ### WellFormed: an ill-formed term for each register operand is refused (30_encoding.md R64, R73) -/

theorem test_wellFormed_ldi : ¬ (Instr.ldi 8#8 0#8).WellFormed ∧ (Instr.ldi 7#8 0xFF#8).WellFormed := by decide
theorem test_wellFormed_prn : ¬ (Instr.prn 8#8).WellFormed ∧ (Instr.prn 7#8).WellFormed := by decide
theorem test_wellFormed_add : ¬ (Instr.add 8#8 0#8).WellFormed ∧ ¬ (Instr.add 0#8 8#8).WellFormed := by decide
theorem test_wellFormed_sub : ¬ (Instr.sub 0xFF#8 0#8).WellFormed ∧ ¬ (Instr.sub 0#8 0xFF#8).WellFormed := by decide
theorem test_wellFormed_mul : ¬ (Instr.mul 8#8 0#8).WellFormed ∧ ¬ (Instr.mul 0#8 8#8).WellFormed := by decide
theorem test_wellFormed_push : ¬ (Instr.push 8#8).WellFormed ∧ (Instr.push 7#8).WellFormed := by decide
theorem test_wellFormed_pop : ¬ (Instr.pop 0x10#8).WellFormed ∧ (Instr.pop 0#8).WellFormed := by decide

/-! ### Decoding: words written out from the opcode map (R66) -/

theorem test_decode_ldi : decode ⟨0b10000010#8, 0b00000011#8, 0b11111111#8⟩ = .ok (.ldi 3#8 0xFF#8) := by decide
theorem test_decode_prn : decode ⟨0b01000111#8, 0b00001001#8, 0b00000001#8⟩ = .ok (.prn 9#8) := by decide
theorem test_decode_hlt : decode ⟨0b00000001#8, 0b11111111#8, 0b11111111#8⟩ = .ok .hlt := by decide
theorem test_decode_mul : decode ⟨0b10100010#8, 0b00000001#8, 0b00000010#8⟩ = .ok (.mul 1#8 2#8) := by decide
theorem test_decode_add : decode ⟨0b10100000#8, 0b00001001#8, 0b00001010#8⟩ = .ok (.add 9#8 10#8) := by decide
theorem test_decode_sub : decode ⟨0b10100001#8, 0b00000101#8, 0b00000110#8⟩ = .ok (.sub 5#8 6#8) := by decide
theorem test_decode_push : decode ⟨0b01000101#8, 0b00000111#8, 0b00000000#8⟩ = .ok (.push 7#8) := by decide
theorem test_decode_pop : decode ⟨0b01000110#8, 0b00000010#8, 0b00000001#8⟩ = .ok (.pop 2#8) := by decide
/-- V62, V63, V64: opcodes of other LS-8 descriptions and near neighbours are illegal. -/
theorem test_decode_illegal : [0x00, 0xFF, 0xA7, 0x50, 0x02, 0x81, 0x83, 0xC2].map (decodeTableWord 8) =
    [none, none, none, none, none, none, none, none] := by decide
theorem test_table_word_ldi : decodeTableWord 24 0x08_03_82 = some (.ldi 3#8 8#8) := by decide

/-! ### One step of each instruction -/

/-- V10. -/
theorem test_ldi : regsAfter (at' 0#8 [0x82#8, 3#8, 0xFF#8, 1#8]) =
    some [0#8, 0#8, 0#8, 0xFF#8, 0#8, 0#8, 0#8, 0xF4#8] := by decide
/-- V76: the register is written, then the advance faults. -/
theorem test_ldi_at_253 : (after (step (at' 0xFD#8 [0x82#8, 1#8, 0x42#8]))).map (fun t => (t.status, t.pc, t.reg 1)) =
    some (.faulted (.outOfBounds 256), 0xFD#8, 0x42#8) := by decide
/-- V14. -/
theorem test_prn : (after (step (withRegs (at' 0#8 [0x47#8, 4#8, 1#8])
    #v[0#8, 0#8, 0#8, 0#8, 0xC8#8, 0#8, 0#8, 0xF4#8]))).map State.out = some [200#8] := by decide
/-- V16. -/
theorem test_prn_bad_register : (after (step (at' 0#8 [0x47#8, 9#8, 1#8]))).map (fun t => (t.status, t.pc, t.out)) =
    some (.faulted (.invalidRegister 9#8), 0#8, []) := by decide
/-- V27, ADD column: 200 + 2. -/
theorem test_add : regsAfter (withRegs (at' 0#8 [0xA0#8, 0#8, 1#8]) #v[200#8, 100#8, 0#8, 0#8, 0#8, 0#8, 0#8, 0xF4#8]) =
    some [44#8, 100#8, 0#8, 0#8, 0#8, 0#8, 0#8, 0xF4#8] := by decide
/-- V35: register A is checked first. -/
theorem test_add_bad_registers : stopAfter (at' 0#8 [0xA0#8, 9#8, 10#8, 1#8]) =
    some (.faulted (.invalidRegister 9#8), 0#8) := by decide
/-- V24, SUB column: 3 - 5. -/
theorem test_sub : regsAfter (withRegs (at' 0#8 [0xA1#8, 0#8, 1#8]) #v[3#8, 5#8, 0#8, 0#8, 0#8, 0#8, 0#8, 0xF4#8]) =
    some [254#8, 5#8, 0#8, 0#8, 0#8, 0#8, 0#8, 0xF4#8] := by decide
/-- V32. -/
theorem test_sub_self : regsAfter (withRegs (at' 0#8 [0xA1#8, 2#8, 2#8]) #v[0#8, 0#8, 0x4D#8, 0#8, 0#8, 0#8, 0#8, 0xF4#8]) =
    some [0#8, 0#8, 0#8, 0#8, 0#8, 0#8, 0#8, 0xF4#8] := by decide
/-- V27, MUL column: 200 * 2. -/
theorem test_mul : regsAfter (withRegs (at' 0#8 [0xA2#8, 0#8, 1#8]) #v[200#8, 2#8, 0#8, 0#8, 0#8, 0#8, 0#8, 0xF4#8]) =
    some [144#8, 2#8, 0#8, 0#8, 0#8, 0#8, 0#8, 0xF4#8] := by decide
/-- V28, MUL column: 255 * 255. -/
theorem test_mul_wraps : regsAfter (withRegs (at' 0#8 [0xA2#8, 0#8, 1#8]) #v[255#8, 255#8, 0#8, 0#8, 0#8, 0#8, 0#8, 0xF4#8]) =
    some [1#8, 255#8, 0#8, 0#8, 0#8, 0#8, 0#8, 0xF4#8] := by decide
/-- V41: PUSH R7 stores the decremented SP. -/
theorem test_push_sp : (after (step (at' 0#8 [0x45#8, 7#8, 1#8]))).map (fun t => (t.sp, t.mem.read 0xF3, t.pc)) =
    some (0xF3#8, 0xF3#8, 2#8) := by decide
/-- V42: SP wraps below 0. -/
theorem test_push_wraps : (after (step (withRegs (at' 0#8 [0x45#8, 1#8, 1#8])
    #v[0#8, 0x99#8, 0#8, 0#8, 0#8, 0#8, 0#8, 0#8]))).map (fun t => (t.sp, t.mem.read 0xFF)) = some (0xFF#8, 0x99#8) := by decide
/-- V45: POP R7 increments the loaded byte. -/
theorem test_pop_sp : (after (step (withCell (at' 0#8 [0x46#8, 7#8, 1#8]) 0xF4 0x10#8))).map State.sp = some 0x11#8 := by decide
/-- V46: SP wraps above 255. -/
theorem test_pop_wraps : regsAfter (withRegs (withCell (at' 0#8 [0x46#8, 3#8, 1#8]) 0xFF 0x77#8)
    #v[0#8, 0#8, 0#8, 0#8, 0#8, 0#8, 0#8, 0xFF#8]) = some [0#8, 0#8, 0#8, 0x77#8, 0#8, 0#8, 0#8, 0#8] := by decide
/-- V72: a HLT at 253 runs. -/
theorem test_hlt : stopAfter (at' 0xFD#8 [1#8]) = some (.halted, 0xFD#8) := by decide
/-- V70: at 254 it does not. -/
theorem test_hlt_at_254 : stopAfter (at' 0xFE#8 [1#8]) = some (.faulted (.outOfBounds 256), 0xFE#8) := by decide

/-! ### The cycle and the host's side -/

/-- V60. -/
theorem test_empty_image : stopAfter State.reset = some (.faulted (.unknownOpcode 0#8), 0#8) := by decide
/-- V43: the decrement stays. -/
theorem test_push_bad_register : (after (step (at' 0#8 [0x45#8, 8#8, 1#8]))).map (fun t => (t.status, t.sp, t.mem.read 0xF3)) =
    some (.faulted (.invalidRegister 8#8), 0xF3#8, 0#8) := by decide
/-- R22: the aliases IM, IS and SP. -/
theorem test_aliases : (let s := withRegs State.reset #v[0#8, 1#8, 2#8, 3#8, 4#8, 5#8, 6#8, 7#8]; (s.im, s.is, s.sp)) =
    (5#8, 6#8, 7#8) := by decide
/-- Each row's word, placed after reset, runs: LDI, PRN, HLT, MUL, ADD, SUB, PUSH, POP with operand bytes 0. -/
theorem test_placed_words : [0x82, 0x47, 0x01, 0xA2, 0xA0, 0xA1, 0x45, 0x46].map
      (fun w => stopAfter (State.reset.withFetchWord 8 w)) =
    [some (.running, 3#8), some (.running, 2#8), some (.halted, 0#8), some (.running, 3#8), some (.running, 3#8),
      some (.running, 3#8), some (.running, 2#8), some (.running, 2#8)] := by decide
/-- The image of V1, placed from address 0. -/
theorem test_load : (after (loadImage [0x82#8, 0#8, 8#8, 0x47#8, 0#8, 1#8])).map State.mem =
    some [(0, 0x82#8), (2, 8#8), (3, 0x47#8), (5, 1#8)] := by decide
/-- R158 and D10: 1 after UnknownOpcode, with the byte named. -/
theorem test_exit_unknown : (after (step State.reset)).map (fun t => (t.exitStatus, t.diagnostic)) =
    some (some 1, some 0#8) := by decide
/-- R82: at 254 the third byte is absent. -/
theorem test_snapshot_at_254 : ((at' 0xFE#8 [1#8]).tracePort true).map (fun n => (n.byte0, n.byte1, n.byte2)) =
    some (some 1#8, some 0#8, none) := by decide
/-- R101: 200 prints as `200`, a line each. -/
theorem test_render : renderOutput [8#8, 200#8] = "8\n200\n" := by decide
/-- R72 and R73. -/
theorem test_assembly : assembly (.ldi 0#8 200#8) = some "LDI R0,200" ∧ assembly .hlt = some "HLT" ∧
    assembly (.push 7#8) = some "PUSH R7" ∧ assembly (.add 0#8 8#8) = none := by decide
/-- R29 and D6: the places of L, G and E. -/
theorem test_flags : (let s := { State.reset with fl := 0b00000100#8 }; (s.flagL, s.flagG, s.flagE)) =
    (true, false, false) := by decide

/-! ### Witnesses: the hypotheses of each statement can be met together -/

theorem witness_DecodeOfEncodeIsTheInstruction : 3 ≤ (encode .hlt ++ [0#8, 0#8]).length := by decide
theorem witness_DecodedWindowBeginsWithTheEncoding : decode ⟨0x45#8, 7#8, 9#8⟩ = .ok (.push 7#8) := by decide
theorem witness_DecodeComparesTheWholeOpcodeByte_selects : decode ⟨0xA2#8, 0xFF#8, 0xFF#8⟩ = .ok (.mul 0xFF#8 0xFF#8) := by decide
theorem witness_DecodeComparesTheWholeOpcodeByte_rejects : 0xA3#8 ∉ opcodeBytes := by decide
theorem witness_IllegalOpcodeRaisesUnknownOpcode : (at' 0xFD#8 [0xA7#8]).status = .running ∧
    (at' 0xFD#8 [0xA7#8]).pc.toNat ≤ 253 ∧ (at' 0xFD#8 [0xA7#8]).mem.read 0xFD ∉ opcodeBytes := by decide
theorem witness_IllegalOpcodeRaisesUnknownOpcode_only : (at' 0xFD#8 [0xA7#8]).status = .running ∧
    stopAfter (at' 0xFD#8 [0xA7#8]) = some (.faulted (.unknownOpcode 0xA7#8), 0xFD#8) := by decide
theorem witness_StepRunsTheDecodedInstruction : (at' 0xFD#8 [0x82#8, 1#8, 0x42#8]).status = .running ∧
    (at' 0xFD#8 [0x82#8, 1#8, 0x42#8]).pc.toNat + 2 < 256 ∧
    decode ⟨(at' 0xFD#8 [0x82#8, 1#8, 0x42#8]).mem.read 0xFD, (at' 0xFD#8 [0x82#8, 1#8, 0x42#8]).mem.read 0xFE,
      (at' 0xFD#8 [0x82#8, 1#8, 0x42#8]).mem.read 0xFF⟩ = .ok (.ldi 1#8 0x42#8) := by decide
theorem witness_EncodedInstructionAtPcRuns : (at' 0#8 [0x47#8, 4#8, 0xFF#8]).status = .running ∧
    (at' 0#8 [0x47#8, 4#8, 0xFF#8]).mem.read 0 = (encode (.prn 4#8))[0] ∧
    (at' 0#8 [0x47#8, 4#8, 0xFF#8]).mem.read 1 = (encode (.prn 4#8))[1] ∧ (encode (.prn 4#8)).length = 2 := by decide
theorem witness_FetchPastTheTopFaults : (at' 0xFE#8 []).status = .running ∧ 254 ≤ (at' 0xFE#8 []).pc.toNat ∧
    (at' 0xFF#8 []).status = .running ∧ 254 ≤ (at' 0xFF#8 []).pc.toNat := by decide
theorem witness_StoppedMachineNeverWakes : State.reset.halt.status ≠ .running := by decide
/-- One Running state for each outcome of the statement, at the edge of its clause. -/
theorem witness_FirstFailingCheckIsReported :
    [at' 0xFE#8 [0#8], at' 0xFD#8 [0#8], at' 0xFD#8 [1#8], at' 0#8 [0x45#8, 8#8], at' 0#8 [0xA2#8, 7#8, 8#8],
      at' 0xFD#8 [0xA0#8, 7#8, 7#8], at' 0xFC#8 [0x82#8, 7#8, 8#8]].map stopAfter =
    [some (.faulted (.outOfBounds 256), 0xFE#8), some (.faulted (.unknownOpcode 0#8), 0xFD#8), some (.halted, 0xFD#8),
      some (.faulted (.invalidRegister 8#8), 0#8), some (.faulted (.invalidRegister 8#8), 0#8),
      some (.faulted (.outOfBounds 256), 0xFD#8), some (.running, 0xFF#8)] := by decide
theorem witness_FaultsArePreciseExceptTwoCases : (at' 0#8 [0x46#8, 8#8]).status = .running ∧
    stopAfter (at' 0#8 [0x46#8, 8#8]) = some (.faulted (.invalidRegister 8#8), 0#8) ∧
    stopAfter (at' 0#8 [0x45#8, 8#8]) = some (.faulted (.invalidRegister 8#8), 0#8) ∧
    stopAfter (at' 0xFD#8 [0xA1#8, 0#8, 0#8]) = some (.faulted (.outOfBounds 256), 0xFD#8) := by decide
theorem witness_PcMovesOnlyByTheInstructionLength : (at' 0#8 [0x46#8, 0#8]).status = .running ∧
    stopAfter (at' 0#8 [0x46#8, 0#8]) = some (.running, 2#8) ∧ stopAfter (at' 5#8 [1#8]) = some (.halted, 5#8) := by decide
theorem witness_HaltsExactlyAtAFetchedHlt : (at' 0xFD#8 [1#8]).status = .running ∧
    stopAfter (at' 0xFD#8 [1#8]) = some (.halted, 0xFD#8) := by decide
theorem witness_EveryRunEndsWithin128Cycles : 254 ≤ (at' 0xFE#8 []).pc.toNat + 2 * 0 ∧ 254 ≤ (at' 0#8 []).pc.toNat + 2 * 127 := by
  decide
theorem witness_FlagsRegisterIsNeitherReadNorWritten : (after (step (at' 0#8 [0xA0#8, 0#8, 1#8]))).isSome := by decide
theorem witness_MemoryChangesOnlyAtThePushedCell :
    (after (step (at' 0#8 [0x45#8, 7#8]))).map (fun t => t.mem.read 0xF3) = some 0xF3#8 ∧
    (at' 0#8 [0x45#8, 7#8]).mem.read 0xF3 = 0#8 := by decide
theorem witness_RegistersChangeOnlyWhereNamed : (at' 0#8 [0x82#8, 5#8, 1#8]).regs[5] ≠ 1#8 ∧
    (after (step (at' 0#8 [0x82#8, 5#8, 1#8]))).map (fun t => t.regs[5]) = some 1#8 ∧
    (after (step (at' 0#8 [0x45#8, 0#8]))).map (fun t => t.regs[7]) = some 0xF3#8 := by decide
theorem witness_OutputGrowsOnlyByPrn : (at' 0#8 [0x47#8, 7#8]).out = [] ∧
    (after (step (at' 0#8 [0x47#8, 7#8]))).map State.out = some [0xF4#8] := by decide
theorem witness_EveryStepKeepsTheInvariant : State.reset.Inv ∧ (after (step State.reset)).isSome :=
  ⟨⟨by decide, trivial⟩, by decide⟩
theorem witness_ImageLoadPlacesTheImage :
    (List.replicate 256 0#8).length ≤ 256 ∧ 256 < (List.replicate 257 0#8).length :=
  ⟨(List.length_replicate ..).le, (List.length_replicate ..).symm ▸ Nat.lt_succ_self 256⟩
theorem witness_PlacedTableWordIsTheNextInstruction : (at' 0xFE#8 [9#8]).mem.wf ∧ decodeTableWord 8 0xA0 = some (.add 0#8 0#8) := by
  decide
theorem witness_RegisterAccessContract : (7#8 : Byte).toNat < 8 ∧ 8 ≤ (8#8 : Byte).toNat ∧
    (after (State.reset.raise (.invalidRegister 8#8))).isSome := by decide
theorem witness_MemoryAccessContract_inside : (at' 0#8 [1#8]).mem.wf ∧ 255 ≤ 255 ∧
    ((at' 0#8 [1#8]).memWrite 255 9#8).toOption.map (fun t => t.mem.read 255) = some 9#8 := by decide
theorem witness_MemoryAccessContract_outside : (at' 0#8 [1#8]).mem.wf ∧ 256 ≤ 256 ∧
    (at' 0#8 [1#8]).memWrite 256 9#8 = .error (.outOfBounds 256) := ⟨by decide, by decide, rfl⟩
theorem witness_AluWritesOnlyRegisterA : ∃ t, alu .mul 7#8 0#8 State.reset = .ok t := ⟨_, rfl⟩
theorem witness_UnsupportedALUOperationIsUnreachable : (7#8 : Byte).toNat < 8 ∧ (at' 0#8 [0xA0#8]).status = .running ∧
    (after (step (at' 0#8 [0xA0#8]))).isSome := by decide
theorem witness_SignedReadingOfTheAluAgrees : ∃ t u v, alu .add 7#8 0#8 State.reset = .ok t ∧
    alu .sub 7#8 0#8 State.reset = .ok u ∧ alu .mul 7#8 0#8 State.reset = .ok v := ⟨_, _, _, rfl, rfl, rfl⟩
theorem witness_LdiLoadsTheImmediate : (7#8 : Byte).toNat < 8 ∧ (at' 0xFC#8 []).pc.toNat + 3 < 256 := by decide
theorem witness_PrnEmitsTheRegister : (7#8 : Byte).toNat < 8 ∧ (at' 0xFD#8 []).pc.toNat + 2 < 256 := by decide
theorem witness_AddIsModulo256 : (7#8 : Byte).toNat < 8 ∧ (0#8 : Byte).toNat < 8 ∧ (at' 0xFC#8 []).pc.toNat + 3 < 256 := by decide
theorem witness_SubIsModulo256 : (0#8 : Byte).toNat < 8 ∧ (7#8 : Byte).toNat < 8 ∧ (at' 0xFC#8 []).pc.toNat + 3 < 256 := by decide
theorem witness_MulIsModulo256 : (7#8 : Byte).toNat < 8 ∧ (7#8 : Byte).toNat < 8 ∧ (at' 0xFC#8 []).pc.toNat + 3 < 256 := by decide
theorem witness_PushStoresBelowTheStackPointer : (7#8 : Byte).toNat < 8 ∧ (at' 0xFD#8 [0x45#8, 7#8]).mem.wf ∧
    (at' 0xFD#8 [0x45#8, 7#8]).pc.toNat + 2 < 256 := by decide
theorem witness_PopLoadsAtTheStackPointer : (7#8 : Byte).toNat < 8 ∧ (at' 0xFD#8 []).pc.toNat + 2 < 256 := by decide
theorem witness_HltStopsAndChangesNothing : (at' 0xFE#8 [1#8]).status = .running ∧ 254 ≤ (at' 0xFE#8 [1#8]).pc.toNat ∧
    (at' 0xFE#8 [1#8]).mem.read 0xFE = 1#8 := by decide
theorem witness_InvalidRegisterIsTakenWithNoEffect : 8 ≤ (8#8 : Byte).toNat ∧ (7#8 : Byte).toNat < 8 := by decide
theorem witness_PushOfNoRegisterKeepsTheDecrement : 8 ≤ (8#8 : Byte).toNat := by decide
theorem witness_AdvancePastTheTopFaults : (Instr.sub 7#8 0#8).WellFormed ∧ Instr.sub 7#8 0#8 ≠ .hlt ∧
    256 ≤ (at' 0xFD#8 []).pc.toNat + (Instr.sub 7#8 0#8).length := by decide
theorem witness_WellFormedNonHltCompletesWhereItsAdvanceFits : (Instr.pop 7#8).WellFormed ∧ Instr.pop 7#8 ≠ .hlt ∧
    (at' 0xFD#8 []).pc.toNat + (Instr.pop 7#8).length < 256 := by decide
theorem witness_LdiThenPrnEmitsTheImmediate : (at' 0xFA#8 [0x82#8, 7#8, 200#8, 0x47#8, 7#8]).status = .running ∧
    (at' 0xFA#8 [0x82#8, 7#8, 200#8, 0x47#8, 7#8]).pc.toNat ≤ 250 ∧
    [0xFA, 0xFB, 0xFC, 0xFD, 0xFE].map (at' 0xFA#8 [0x82#8, 7#8, 200#8, 0x47#8, 7#8]).mem.read =
      [0x82#8, 7#8, 200#8, 0x47#8, 7#8] := by decide
/-- The state after the PUSH is itself a state that kept R7 and the pushed cell. -/
theorem witness_PushThenPopRestores : (7#8 : Byte).toNat < 8 ∧ State.reset.mem.wf ∧ State.reset.pc.toNat + 2 < 256 ∧
    (after (exec (.push 7#8) State.reset)).map (fun t => (decide (t.pc.toNat + 2 < 256), (after (exec (.pop 7#8) t)).isSome)) =
      some (true, true) := by decide
/-- The last `pc` whose next window is fetched, and each of that window's three cells as the new stack pointer. -/
theorem witness_PushedByteIsFetchedByTheNextCycle : ∀ k < 3,
    let s := withRegs (at' 0xFB#8 [0x45#8, 6#8]) #v[0#8, 0#8, 0#8, 0#8, 0#8, 0#8, 0x82#8, 0xFE#8 + BitVec.ofNat 8 k]
    (6#8 : Byte).toNat < 8 ∧ s.status = .running ∧ s.mem.wf ∧ s.pc.toNat + 2 ≤ 253 ∧ s.mem.read s.pc.toNat = 0x45#8 ∧
      s.mem.read (s.pc.toNat + 1) = 6#8 ∧ (s.regs[7] - 1#8).toNat = s.pc.toNat + 2 + k := by decide
theorem witness_ExitStatusSaysHowTheRunEnded : State.reset.status = .running ∧ State.reset.halt.EndedNormally ∧
    (after (step State.reset)).map State.status = some (.faulted (.unknownOpcode 0#8)) := ⟨rfl, rfl, by decide⟩
theorem witness_TraceShowsOneSnapshotPerCycle :
    ∀ j < 1, ∃ u : State, Sys2Proof.core.run j (at' 0#8 [0x47#8]) = .next u ∧ u.status = .running := by
  intro j hj
  obtain rfl : j = 0 := by omega
  exact ⟨_, rfl, rfl⟩
theorem witness_PrnTextIsUnsignedDecimal_edges : (decimalText 9#8).toList = ['9'] ∧ (decimalText 10#8).toList = ['1', '0'] ∧
    (decimalText 99#8).toList = ['9', '9'] ∧ (decimalText 255#8).toList = ['2', '5', '5'] := by decide

end Sys2Proof.Tests
end

section
/-! Proofs of the statements of 10_state.md. -/

namespace Sys2Proof.Machine

/-- Fault entry is fatal (60_exceptions.md R156, R168): a step from the state it leaves changes nothing. -/
theorem step_of_raise {s t : State} {f : Fault} (h : s.raise f = .next t) : step t = .next t := by
  rw [State.raise_eq] at h
  cases h
  exact step_stopped nofun

/-- Settles O25, from what a register read and a register write answer on either side of 8, and from fault entry being
fatal. -/
theorem registerAccessContract : Obligations.RegisterAccessContract := by
  intro s i v
  refine ⟨fun h => ⟨?read, ?write⟩, fun h => ⟨s.readReg_of_ge h, s.writeReg_of_ge v h⟩, fun _ => step_of_raise⟩
  case read => exact s.readReg_of_lt h
  case write => exact s.writeReg_of_lt v h

end Sys2Proof.Machine
end

section
/-! Proofs of the statements of 30_encoding.md. -/

namespace Sys2Proof.Machine

/-- The eight values of R66 are, up to their order, the opcode column of the decoder's own table. -/
theorem opcodeBytes_perm_map_row : opcodeBytes.Perm (opcodeTable.map fun m => m.row.opcode) := by decide

/-- The lookup finds nothing exactly for a byte that is none of the eight values (30_encoding.md R67, R70). -/
theorem lookupOpcode_eq_none_iff {op : Byte} : lookupOpcode op = none ↔ op ∉ opcodeBytes := by
  rw [opcodeBytes_perm_map_row.mem_iff]
  simp [lookupOpcode]

/-- Some mnemonic has a property exactly when one of the eight, in the table's order, has it. -/
theorem exists_mnemonic_iff {p : Mnemonic → Prop} :
    (∃ m, p m) ↔ p .ldi ∨ p .prn ∨ p .hlt ∨ p .mul ∨ p .add ∨ p .sub ∨ p .push ∨ p .pop := by
  constructor
  · rintro ⟨m, hm⟩
    cases m <;> simp [hm]
  · rintro (h | h | h | h | h | h | h | h) <;> exact ⟨_, h⟩

/-- Settles O4: what decodes is the build of the row whose opcode is the whole byte, read off for each of the eight rows;
a byte outside them is not found. -/
theorem decodeComparesTheWholeOpcodeByte : Obligations.DecodeComparesTheWholeOpcodeByte := by
  refine ⟨fun op a b i => ?selects, fun op a b hop => ?rejects⟩
  case selects =>
    rw [decode_ok_iff, exists_mnemonic_iff]
    simp only [Mnemonic.row, Mnemonic.build, eq_comm (b := op)]
  case rejects => exact decode_error_iff.mpr ⟨lookupOpcode_eq_none_iff.mpr hop, rfl⟩

end Sys2Proof.Machine
end

section
/-! Proofs of the statements of 42_alu.md. -/

namespace Sys2Proof.Machine

/-- All that an ALU operation that completes can answer: both registers exist, the tag has a result, and that result is in
register `a` (42_alu.md R110, R111). -/
theorem alu_cases {tag : AluTag} {a b : Byte} {s t : State} (h : alu tag a b s = .ok t) :
    ∃ (ha : a.toNat < 8) (hb : b.toNat < 8) (r : Byte),
      aluResult tag (s.reg ⟨a.toNat, ha⟩) (s.reg ⟨b.toNat, hb⟩) = .ok r ∧ t = s.setReg ⟨a.toNat, ha⟩ r := by
  by_cases ha : a.toNat < 8
  case neg => cases (alu_of_bad_a s (Nat.not_lt.mp ha)).symm.trans h
  by_cases hb : b.toNat < 8
  case neg => cases (alu_of_bad_b s ha (Nat.not_lt.mp hb)).symm.trans h
  cases hr : aluResult tag (s.reg ⟨a.toNat, ha⟩) (s.reg ⟨b.toNat, hb⟩) with
  | error f => simp [alu, s.readReg_of_lt ha, s.readReg_of_lt hb, hr] at h
  | ok r =>
    cases (alu_of_lt s ha hb hr).symm.trans h
    exact ⟨ha, hb, r, hr, rfl⟩

/-- Settles O27: the one thing a completed ALU operation does is the write of its result to register `a`. -/
theorem aluWritesOnlyRegisterA : Obligations.AluWritesOnlyRegisterA := by
  intro tag a b s t h
  obtain ⟨ha, _, r, _, rfl⟩ := alu_cases h
  exact ⟨ha, r, rfl⟩

end Sys2Proof.Machine
end

section
/-! Proofs of the statements of 60_exceptions.md. -/

namespace Sys2Proof.Machine

/-- A state that one step answers with itself stays as it is through any number of steps (60_exceptions.md R168). -/
theorem run_of_step_eq_self {s : State} (h : step s = .next s) (k : Nat) : core.run k s = .next s := by
  have hcore : core.step s = .next s := h
  induction k with
  | zero => rfl
  | succ k ih => simp only [Host.Core.run, hcore, ih]

/-- Settles O10: a stopped state, and so the state a raised fault leaves, is one that a step answers with itself. -/
theorem stoppedMachineNeverWakes : Obligations.StoppedMachineNeverWakes := by
  refine ⟨fun s k hs => ?stopped, fun s f k => ?raised⟩
  case stopped => exact run_of_step_eq_self (step_stopped hs) k
  case raised =>
    have hraise := s.raise_eq f
    exact ⟨_, hraise, run_of_step_eq_self (step_of_raise hraise) k⟩

end Sys2Proof.Machine
end

section
/-! Support for 30_encoding.md: the encoder and the decoder read one relation in two directions. -/

namespace Sys2Proof

@[simp] theorem mnemonic_build (m : Mnemonic) (a b : Byte) : (m.build a b).mnemonic = m := by
  cases m <;> rfl

/-- The bytes of an instruction begin a window exactly when its opcode is the window's and its row, filled with the window's
operand bytes, gives it back. -/
theorem encode_begins_window_iff {w : Window} {i : Instr} :
    encode i <+: [w.op, w.a, w.b] ↔ i.mnemonic.row.opcode = w.op ∧ i = i.mnemonic.build w.a w.b := by
  cases i <;> simp [encode, Instr.operandBytes, Instr.mnemonic, Mnemonic.build]

/-- A window decodes to the instruction whose bytes it begins with (30_encoding.md R60, R66, R67). -/
theorem decode_ok_iff_encode {w : Window} {i : Instr} : decode w = .ok i ↔ encode i <+: [w.op, w.a, w.b] := by
  rw [decode_ok_iff, encode_begins_window_iff]
  constructor
  · rintro ⟨m, hm, rfl⟩
    simp [hm]
  · rintro ⟨hop, hi⟩
    exact ⟨_, hop, hi⟩

/-- Three bytes or more begin with a window. -/
theorem exists_windowOf {bytes : List Byte} (h : 3 ≤ bytes.length) :
    ∃ w, windowOf bytes = some w ∧ [w.op, w.a, w.b] <+: bytes := by
  match bytes, h with
  | op :: a :: b :: rest, _ => exact ⟨⟨op, a, b⟩, rfl, ⟨rest, rfl⟩⟩

theorem length_encode (i : Instr) : (encode i).length = i.length := by
  cases i <;> rfl

/-- No row is longer than the window (30_encoding.md R61, R66). -/
theorem row_length_le (m : Mnemonic) : m.row.length ≤ 3 := by
  cases m <;> decide

theorem Instr.length_le (i : Instr) : i.length ≤ 3 :=
  row_length_le i.mnemonic

end Sys2Proof

namespace Sys2Proof.Machine

/-- Settles O2: the instruction's bytes and the window both begin the same list, and the window is not the shorter one. -/
theorem decodeOfEncodeIsTheInstruction : Obligations.DecodeOfEncodeIsTheInstruction := by
  intro i after hlen
  obtain ⟨w, hw, hbegins⟩ := exists_windowOf hlen
  have hle : (encode i).length ≤ [w.op, w.a, w.b].length := (length_encode i).trans_le i.length_le
  exact ⟨w, hw, decode_ok_iff_encode.mpr (List.prefix_of_prefix_length_le (List.prefix_append _ _) hbegins hle)⟩

/-- Settles O3: one direction of `decode_ok_iff_encode`. -/
theorem decodedWindowBeginsWithTheEncoding : Obligations.DecodedWindowBeginsWithTheEncoding :=
  fun _ _ => decode_ok_iff_encode.mp

/-- Settles O1: each word begins with the bytes of its instruction. -/
theorem wordsOfTheOpcodeMapDecode : Obligations.WordsOfTheOpcodeMapDecode := by
  unfold Obligations.WordsOfTheOpcodeMapDecode
  simp only [decode_ok_iff_encode]
  decide

end Sys2Proof.Machine
end

section
/-! Support for 41 to 44: each meaning as a check of its register operands, an effect and an advance. -/

namespace Sys2Proof

/-- The first byte of a list that names no register (30_encoding.md R64). -/
def firstBad (bytes : List Byte) : Option Byte :=
  bytes.find? fun b => decide (8 ≤ b.toNat)

theorem firstBad_nil : firstBad [] = none := rfl

theorem firstBad_single_eq_some_iff {a x : Byte} : firstBad [a] = some x ↔ 8 ≤ a.toNat ∧ a = x := by
  simp [firstBad]

/-- Of two register operands, A is reported before B (60_exceptions.md R159, decision D8). -/
theorem firstBad_pair_eq_some_iff {a b x : Byte} :
    firstBad [a, b] = some x ↔ (8 ≤ a.toNat ∧ a = x) ∨ (a.toNat < 8 ∧ 8 ≤ b.toNat ∧ b = x) := by
  by_cases ha : 8 ≤ a.toNat
  · simp [firstBad, ha, Nat.not_lt.mpr ha]
  · simp [firstBad, ha, Nat.not_le.mp ha]

theorem namesRegister_pair {a b : Byte} (h : ∀ x ∈ [a, b], namesRegister x) : a.toNat < 8 ∧ b.toNat < 8 :=
  ⟨h a List.mem_cons_self, h b (by simp)⟩

/-- The register operand the operand check reports, if one names no register. -/
def Instr.badOperand (i : Instr) : Option Byte :=
  firstBad i.regOperands

/-- The operand check passes exactly the well-formed instructions. -/
theorem Instr.badOperand_eq_none_iff {i : Instr} : i.badOperand = none ↔ i.WellFormed := by
  simp [Instr.badOperand, firstBad, Instr.WellFormed]

theorem Instr.badOperand_eq_some {i : Instr} {b : Byte} (h : i.badOperand = some b) : 8 ≤ b.toNat ∧ b ∈ i.regOperands := by
  have hb := List.find?_some h
  exact ⟨by simpa using hb, List.mem_of_find?_eq_some h⟩

/-- The bytes a row reads as registers are among the window's operand bytes. -/
theorem mem_regOperands_build {m : Mnemonic} {a b x : Byte} (h : x ∈ (m.build a b).regOperands) : a = x ∨ b = x := by
  have hsub : (m.build a b).regOperands ⊆ [a, b] := by cases m <;> simp [Mnemonic.build, Instr.regOperands]
  simpa [eq_comm] using hsub h

end Sys2Proof

namespace Sys2Proof.Machine

/-- The register an operand byte names; read only for bytes below 8. -/
def regIndex (b : Byte) : Fin 8 :=
  Fin.ofNat 8 b.toNat

theorem regIndex_of_lt {b : Byte} (h : b.toNat < 8) : regIndex b = ⟨b.toNat, h⟩ :=
  Fin.ext (Nat.mod_eq_of_lt h)

/-- What an instruction with good operands has done when it advances `pc` (R100, R101, R113 to R115, R130, R131). HLT, which
does not advance, has no part in it. -/
def effect (i : Instr) (s : State) : State :=
  match i with
  | .ldi a imm => s.setReg (regIndex a) imm
  | .prn a => s.emit (s.reg (regIndex a))
  | .hlt => s
  | .mul a b => s.setReg (regIndex a) (s.reg (regIndex a) * s.reg (regIndex b))
  | .add a b => s.setReg (regIndex a) (s.reg (regIndex a) + s.reg (regIndex b))
  | .sub a b => s.setReg (regIndex a) (s.reg (regIndex a) - s.reg (regIndex b))
  | .push a => { s.setSp (s.sp - 1) with
      mem := s.mem.write (s.sp - 1).toNat ((s.setSp (s.sp - 1)).reg (regIndex a)) }
  | .pop a =>
    (s.setReg (regIndex a) (s.mem.read s.sp.toNat)).setSp
      ((s.setReg (regIndex a) (s.mem.read s.sp.toNat)).sp + 1)

/-- What an instruction has done when its operand check fails: PUSH has decremented R7 (43_stack.md R130, decision D7), no
other one anything. -/
def beforeOperandCheck (i : Instr) (s : State) : State :=
  match i with
  | .push _ => s.setSp (s.sp - 1)
  | .ldi _ _ | .prn _ | .hlt | .mul _ _ | .add _ _ | .sub _ _ | .pop _ => s

section
variable (i : Instr) (s : State) (v : Byte)

@[simp] theorem effect_pc : (effect i s).pc = s.pc := by cases i <;> rfl
@[simp] theorem effect_fl : (effect i s).fl = s.fl := by cases i <;> rfl
@[simp] theorem effect_status : (effect i s).status = s.status := by cases i <;> rfl

/-- No effect depends on `pc`. -/
theorem effect_with_pc : effect i { s with pc := v } = { effect i s with pc := v } := by cases i <;> rfl

/-- No effect depends on FL (10_state.md R30). -/
theorem effect_with_fl : effect i { s with fl := v } = { effect i s with fl := v } := by cases i <;> rfl

@[simp] theorem beforeOperandCheck_pc : (beforeOperandCheck i s).pc = s.pc := by cases i <;> rfl
@[simp] theorem beforeOperandCheck_fl : (beforeOperandCheck i s).fl = s.fl := by cases i <;> rfl
@[simp] theorem beforeOperandCheck_mem : (beforeOperandCheck i s).mem = s.mem := by cases i <;> rfl
@[simp] theorem beforeOperandCheck_out : (beforeOperandCheck i s).out = s.out := by cases i <;> rfl

theorem beforeOperandCheck_with_fl :
    beforeOperandCheck i { s with fl := v } = { beforeOperandCheck i s with fl := v } := by cases i <;> rfl

end

/-! ### The checks -/

theorem alu_of_firstBad {tag : AluTag} {a b x : Byte} (s : State) (h : firstBad [a, b] = some x) :
    alu tag a b s = .error (.invalidRegister x) := by
  obtain ⟨ha, rfl⟩ | ⟨ha, hb, rfl⟩ := firstBad_pair_eq_some_iff.mp h
  · exact alu_of_bad_a s ha
  · exact alu_of_bad_b s ha hb

/-- An instruction one of whose register operands names no register takes InvalidRegister with the first such (60_exceptions.md
R152, R159). -/
theorem exec_of_badOperand {i : Instr} {b : Byte} (s : State) (h : i.badOperand = some b) :
    exec i s = .next { beforeOperandCheck i s with status := .faulted (.invalidRegister b) } := by
  rw [← State.raise_eq]
  cases i with
  | hlt => cases h
  | mul _ _ => simp only [exec, execMul, alu_of_firstBad s h, orRaise_error, beforeOperandCheck]
  | add _ _ => simp only [exec, execAdd, alu_of_firstBad s h, orRaise_error, beforeOperandCheck]
  | sub _ _ => simp only [exec, execSub, alu_of_firstBad s h, orRaise_error, beforeOperandCheck]
  | ldi a _ =>
    obtain ⟨ha, rfl⟩ := firstBad_single_eq_some_iff.mp h
    simp only [exec, execLdi, s.writeReg_of_ge _ ha, orRaise_error, beforeOperandCheck]
  | prn a =>
    obtain ⟨ha, rfl⟩ := firstBad_single_eq_some_iff.mp h
    simp only [exec, execPrn, s.readReg_of_ge ha, orRaise_error, beforeOperandCheck]
  | push a =>
    obtain ⟨ha, rfl⟩ := firstBad_single_eq_some_iff.mp h
    simp only [exec, execPush, narrow_pred, State.readReg_of_ge _ ha, orRaise_error, beforeOperandCheck]
  | pop a =>
    obtain ⟨ha, rfl⟩ := firstBad_single_eq_some_iff.mp h
    simp only [exec, execPop, s.memRead_byte, orRaise_ok, s.writeReg_of_ge _ ha, orRaise_error, beforeOperandCheck]

/-- HLT halts (44_control.md R140). -/
theorem exec_hlt (s : State) : exec .hlt s = .next s.halt := rfl

/-- A well-formed instruction other than HLT is its effect, then its advance. -/
theorem exec_of_wellFormed {i : Instr} (s : State) (hwf : i.WellFormed) (hne : i ≠ .hlt) :
    exec i s = (effect i s).advance i.length := by
  cases i with
  | hlt => exact absurd rfl hne
  | ldi a imm =>
    have ha : a.toNat < 8 := hwf a List.mem_cons_self
    rw [effect, regIndex_of_lt ha]
    exact execLdi_of_lt s imm ha
  | prn a =>
    have ha : a.toNat < 8 := hwf a List.mem_cons_self
    rw [effect, regIndex_of_lt ha]
    exact execPrn_of_lt s ha
  | mul a b =>
    obtain ⟨ha, hb⟩ := namesRegister_pair hwf
    rw [effect, regIndex_of_lt ha, regIndex_of_lt hb]
    exact execMul_of_lt s ha hb
  | add a b =>
    obtain ⟨ha, hb⟩ := namesRegister_pair hwf
    rw [effect, regIndex_of_lt ha, regIndex_of_lt hb]
    exact execAdd_of_lt s ha hb
  | sub a b =>
    obtain ⟨ha, hb⟩ := namesRegister_pair hwf
    rw [effect, regIndex_of_lt ha, regIndex_of_lt hb]
    exact execSub_of_lt s ha hb
  | push a =>
    have ha : a.toNat < 8 := hwf a List.mem_cons_self
    rw [effect, regIndex_of_lt ha]
    exact execPush_of_lt s ha
  | pop a =>
    have ha : a.toNat < 8 := hwf a List.mem_cons_self
    rw [effect, regIndex_of_lt ha]
    exact execPop_of_lt s ha

/-- An advance that stays in memory, as an addition to `pc`. -/
theorem State.advance_fits (s : State) {len : Nat} (h : s.pc.toNat + len < 256) :
    s.advance len = .next { s with pc := s.pc + BitVec.ofNat 8 len } := by
  rw [s.advance_of_lt h, BitVec.ofNat_add, BitVec.ofNat_toNat, BitVec.setWidth_eq]

/-- Where the advance stays in memory, a well-formed instruction other than HLT completes. -/
theorem exec_complete {i : Instr} {s : State} (hwf : i.WellFormed) (hne : i ≠ .hlt)
    (hfit : s.pc.toNat + i.length < 256) :
    exec i s = .next { effect i s with pc := s.pc + BitVec.ofNat 8 i.length } := by
  rw [exec_of_wellFormed s hwf hne, State.advance_fits _ (by simpa using hfit), effect_pc]

/-- Where it does not, the effect stays and OutOfBounds is taken (40_execution_loop.md R87, decision D3). -/
theorem exec_advanceFault {i : Instr} {s : State} (hwf : i.WellFormed) (hne : i ≠ .hlt)
    (hout : 256 ≤ s.pc.toNat + i.length) :
    exec i s = .next { effect i s with status := .faulted (.outOfBounds (s.pc.toNat + i.length)) } := by
  rw [exec_of_wellFormed s hwf hne, State.advance_of_ge _ (by simpa using hout)]
  simp

end Sys2Proof.Machine
end

section
/-! Support and proofs for 40_execution_loop.md: what one cycle does, as a relation with one named case for each way it can
end. -/

namespace Sys2Proof.Machine

/-- The instruction a cycle reads at `pc` when the opcode byte there is that of `m`. -/
abbrev instrAt (s : State) (m : Mnemonic) : Instr :=
  m.build (s.mem.read (s.pc.toNat + 1)) (s.mem.read (s.pc.toNat + 2))

/-- The seven ways a cycle ends (R80 to R88; 60_exceptions.md R159). `step_iff_cycle` says that these are all that `step`
does. -/
inductive Cycle (s : State) : State → Prop
  | stopped (hs : s.status ≠ .running) : Cycle s s
  | fetchFault (hs : s.status = .running) (hpc : 254 ≤ s.pc.toNat) :
      Cycle s { s with status := .faulted (.outOfBounds 256) }
  | decodeFault (hs : s.status = .running) (hpc : s.pc.toNat ≤ 253) (hop : s.mem.read s.pc.toNat ∉ opcodeBytes) :
      Cycle s { s with status := .faulted (.unknownOpcode (s.mem.read s.pc.toNat)) }
  | halt (hs : s.status = .running) (hpc : s.pc.toNat ≤ 253) (hop : s.mem.read s.pc.toNat = 0x01#8) : Cycle s s.halt
  | operandFault (hs : s.status = .running) (hpc : s.pc.toNat ≤ 253) (m : Mnemonic)
      (hop : s.mem.read s.pc.toNat = m.row.opcode) (b : Byte) (hbad : (instrAt s m).badOperand = some b) :
      Cycle s { beforeOperandCheck (instrAt s m) s with status := .faulted (.invalidRegister b) }
  | advanceFault (hs : s.status = .running) (hpc : s.pc.toNat = 253) (m : Mnemonic)
      (hop : s.mem.read s.pc.toNat = m.row.opcode) (hwf : (instrAt s m).WellFormed) (hlen : m.row.length = 3) :
      Cycle s { effect (instrAt s m) s with status := .faulted (.outOfBounds 256) }
  | complete (hs : s.status = .running) (m : Mnemonic) (hop : s.mem.read s.pc.toNat = m.row.opcode)
      (hwf : (instrAt s m).WellFormed) (hne : m ≠ .hlt) (hfit : s.pc.toNat + m.row.length < 256) :
      Cycle s { effect (instrAt s m) s with pc := s.pc + BitVec.ofNat 8 m.row.length }

section
variable {s : State}

theorem length_instrAt (s : State) (m : Mnemonic) : (instrAt s m).length = m.row.length := by
  rw [Instr.length, mnemonic_build]

theorem instrAt_eq_hlt_iff {m : Mnemonic} : instrAt s m = .hlt ↔ m = .hlt := by
  cases m <;> simp [instrAt, Mnemonic.build]

/-- Every row but HLT's is two or three bytes long (30_encoding.md R66). -/
theorem row_length_of_ne_hlt {m : Mnemonic} (h : m ≠ .hlt) : 2 ≤ m.row.length ∧ m.row.length ≤ 3 := by
  cases m <;> simp [Mnemonic.row] at h ⊢

/-- A three-byte row is not the row of another length. -/
theorem ne_of_row_length {m n : Mnemonic} (hm : m.row.length = 3) (hn : n.row.length ≠ 3) : m ≠ n := by
  rintro rfl
  exact hn hm

/-- The opcode of every row is one of the eight (30_encoding.md R66). -/
theorem row_opcode_mem (m : Mnemonic) : m.row.opcode ∈ opcodeBytes := by
  cases m <;> decide

theorem exists_row_of_mem {op : Byte} (h : op ∈ opcodeBytes) : ∃ m : Mnemonic, op = m.row.opcode := by
  cases hl : lookupOpcode op with
  | none => exact absurd h (lookupOpcode_eq_none_iff.mp hl)
  | some m => exact ⟨m, (row_opcode_of_lookup hl).symm⟩

theorem decode_windowAt {m : Mnemonic} (hop : s.mem.read s.pc.toNat = m.row.opcode) :
    decode (windowAt s) = .ok (instrAt s m) :=
  decode_ok_iff.mpr ⟨m, hop.symm, rfl⟩

/-- Settles O8: the fetch raises before the decode. -/
theorem fetchPastTheTopFaults : Obligations.FetchPastTheTopFaults := by
  intro s hs hpc
  rw [step_running hs, fetchDecode, fetch_of_gt hpc]
  rfl

theorem step_of_illegal (hs : s.status = .running) (hpc : s.pc.toNat ≤ 253)
    (hop : s.mem.read s.pc.toNat ∉ opcodeBytes) :
    step s = .next { s with status := .faulted (.unknownOpcode (s.mem.read s.pc.toNat)) } := by
  have hdecode : decode (windowAt s) = .error (.unknownOpcode (s.mem.read s.pc.toNat)) :=
    decode_error_iff.mpr ⟨lookupOpcode_eq_none_iff.mpr hop, rfl⟩
  rw [step_running hs, fetchDecode, fetch_of_le hpc]
  simp only [hdecode]
  rfl

theorem step_of_decode {i : Instr} (hs : s.status = .running) (hpc : s.pc.toNat ≤ 253)
    (hi : decode (windowAt s) = .ok i) : step s = exec i s := by
  rw [step_running hs, fetchDecode, fetch_of_le hpc]
  simp only [hi]
  rfl

/-- Settles O6: the window of the statement is `windowAt`. -/
theorem stepRunsTheDecodedInstruction : Obligations.StepRunsTheDecodedInstruction :=
  fun _ _ hs hpc hi => step_of_decode hs (by omega) hi

/-- Settles O7: the window at `pc` begins with the instruction's bytes, so it decodes to the instruction. -/
theorem encodedInstructionAtPcRuns : Obligations.EncodedInstructionAtPcRuns := by
  intro s i hs hpc hbytes
  have hlen : (encode i).length ≤ 3 := (length_encode i).trans_le i.length_le
  have hbegins : encode i <+: [(windowAt s).op, (windowAt s).a, (windowAt s).b] := by
    rw [List.prefix_iff_getElem]
    refine ⟨hlen, fun k hk => ?_⟩
    rw [← hbytes k hk]
    match k, (by omega : k < 3) with
    | 0, _ | 1, _ | 2, _ => rfl
  exact step_of_decode hs (by omega) (decode_ok_iff_encode.mpr hbegins)

/-! ### `step` is `Cycle` -/

/-- Each case is what the step does in it. -/
theorem Cycle.step_eq {t : State} (h : Cycle s t) : step s = .next t := by
  cases h with
  | stopped hs => exact step_stopped hs
  | fetchFault hs hpc => exact fetchPastTheTopFaults s hs hpc
  | decodeFault hs hpc hop => exact step_of_illegal hs hpc hop
  | halt hs hpc hop => exact step_of_decode hs hpc (decode_windowAt (m := .hlt) hop)
  | operandFault hs hpc m hop b hbad =>
    rw [step_of_decode hs hpc (decode_windowAt hop), exec_of_badOperand s hbad]
  | advanceFault hs hpc m hop hwf hlen =>
    have hne : instrAt s m ≠ .hlt := instrAt_eq_hlt_iff.not.mpr (ne_of_row_length hlen (by decide))
    have hlen : (instrAt s m).length = 3 := (length_instrAt s m).trans hlen
    rw [step_of_decode hs hpc.le (decode_windowAt hop), exec_advanceFault hwf hne (by omega), hpc, hlen]
  | complete hs m hop hwf hne hfit =>
    have hpc : s.pc.toNat ≤ 253 := by have := (row_length_of_ne_hlt hne).1; omega
    have hlen := length_instrAt s m
    rw [step_of_decode hs hpc (decode_windowAt hop), exec_complete hwf (instrAt_eq_hlt_iff.not.mpr hne) (by omega), hlen]

/-- The cases leave none out. -/
theorem exists_cycle (s : State) : ∃ t, Cycle s t := by
  by_cases hs : s.status = .running
  case neg => exact ⟨_, .stopped hs⟩
  by_cases hpc : s.pc.toNat ≤ 253
  case neg => exact ⟨_, .fetchFault hs (by omega)⟩
  by_cases hmem : s.mem.read s.pc.toNat ∈ opcodeBytes
  case neg => exact ⟨_, .decodeFault hs hpc hmem⟩
  obtain ⟨m, hop⟩ := exists_row_of_mem hmem
  by_cases hne : m = .hlt
  case pos =>
    subst hne
    exact ⟨_, .halt hs hpc hop⟩
  cases hbad : (instrAt s m).badOperand with
  | some b => exact ⟨_, .operandFault hs hpc m hop b hbad⟩
  | none =>
    have hwf := Instr.badOperand_eq_none_iff.mp hbad
    by_cases hfit : s.pc.toNat + m.row.length < 256
    · exact ⟨_, .complete hs m hop hwf hne hfit⟩
    · have := row_length_le m
      exact ⟨_, .advanceFault hs (by omega) m hop hwf (by omega)⟩

theorem step_iff_cycle {t : State} : step s = .next t ↔ Cycle s t := by
  refine ⟨fun h => ?_, Cycle.step_eq⟩
  obtain ⟨u, hu⟩ := exists_cycle s
  obtain rfl : u = t := by
    have := hu.step_eq.symm.trans h
    injection this
  exact hu

/-- Settles O9: some case of the cycle applies to every state. -/
theorem everyStepAnswersANextState : Obligations.EveryStepAnswersANextState := by
  intro s
  obtain ⟨t, ht⟩ := exists_cycle s
  exact ⟨t, ht.step_eq⟩

end

end Sys2Proof.Machine
end

section
/-! Proofs of the statements about every cycle: its faults, its end and its frames (10_state.md, 40_execution_loop.md,
60_exceptions.md), each by the cases of `Cycle`. -/

namespace Sys2Proof.Machine

/-! ### The rows by their opcode bytes (30_encoding.md R66) -/

theorem row_opcode_eq_hlt_iff {m : Mnemonic} : m.row.opcode = 0x01#8 ↔ m = .hlt := by
  cases m <;> decide

theorem row_opcode_mem_rr_iff {m : Mnemonic} : m.row.opcode ∈ [0xA0#8, 0xA1#8, 0xA2#8] ↔ m.row.format = .rr := by
  cases m <;> decide

theorem row_opcode_mem_three_iff {m : Mnemonic} :
    m.row.opcode ∈ [0x82#8, 0xA0#8, 0xA1#8, 0xA2#8] ↔ m.row.length = 3 := by
  cases m <;> decide

/-- The operand check of a row that is read: byte 1 first, and byte 2 where the format has a second register. -/
theorem badOperand_build_eq_some_iff {m : Mnemonic} {x y b : Byte} :
    (m.build x y).badOperand = some b ↔
      m ≠ .hlt ∧ ((8 ≤ x.toNat ∧ x = b) ∨ (x.toNat < 8 ∧ m.row.format = .rr ∧ 8 ≤ y.toNat ∧ y = b)) := by
  cases m <;>
    simp [Instr.badOperand, Instr.regOperands, Mnemonic.build, Mnemonic.row, firstBad_nil, firstBad_single_eq_some_iff,
      firstBad_pair_eq_some_iff]

theorem wellFormed_build_iff {m : Mnemonic} {x y : Byte} (hne : m ≠ .hlt) :
    (m.build x y).WellFormed ↔ x.toNat < 8 ∧ (m.row.format = .rr → y.toNat < 8) := by
  cases m <;> simp [Instr.WellFormed, Instr.regOperands, Mnemonic.build, Mnemonic.row] at hne ⊢

/-! ### The status a cycle leaves -/

/-- Settles O11, by the cases of the cycle; what the operand check reads and how long the row is decide between the last
ones. -/
theorem firstFailingCheckIsReported : Obligations.FirstFailingCheckIsReported := by
  intro s t hs h
  cases step_iff_cycle.mp h with
  | stopped hn => exact absurd hs hn
  | fetchFault _ hpc => rw [if_pos hpc]
  | decodeFault _ hpc hop => rw [if_neg (by omega), if_pos hop]
  | halt _ hpc hop =>
    have hmem : (0x01#8 : Byte) ∈ opcodeBytes := row_opcode_mem .hlt
    rw [if_neg (by omega), hop, if_neg (not_not.mpr hmem), if_pos rfl]
    rfl
  | operandFault _ hpc m hop b hbad =>
    obtain ⟨hne, hbad⟩ := badOperand_build_eq_some_iff.mp hbad
    rw [if_neg (by omega), hop, if_neg (not_not.mpr (row_opcode_mem m)), if_neg (row_opcode_eq_hlt_iff.not.mpr hne)]
    obtain ⟨hx, rfl⟩ | ⟨hx, hrr, hy, rfl⟩ := hbad
    · rw [if_pos hx]
    · rw [if_neg (by omega), if_pos ⟨row_opcode_mem_rr_iff.mpr hrr, hy⟩]
  | advanceFault _ hpc m hop hwf hlen =>
    have hne : m ≠ .hlt := ne_of_row_length hlen (by decide)
    obtain ⟨hx, hy⟩ := (wellFormed_build_iff hne).mp hwf
    rw [if_neg (by omega), hop, if_neg (not_not.mpr (row_opcode_mem m)), if_neg (row_opcode_eq_hlt_iff.not.mpr hne),
      if_neg (by omega), if_neg fun ⟨hrr, hbad⟩ => (hy (row_opcode_mem_rr_iff.mp hrr)).not_ge hbad,
      if_pos ⟨row_opcode_mem_three_iff.mpr hlen, hpc⟩]
  | complete _ m hop hwf hne hfit =>
    obtain ⟨hx, hy⟩ := (wellFormed_build_iff hne).mp hwf
    have hpos := (row_length_of_ne_hlt hne).1
    rw [if_neg (by omega), hop, if_neg (not_not.mpr (row_opcode_mem m)), if_neg (row_opcode_eq_hlt_iff.not.mpr hne),
      if_neg (by omega), if_neg fun ⟨hrr, hbad⟩ => (hy (row_opcode_mem_rr_iff.mp hrr)).not_ge hbad,
      if_neg fun ⟨hthree, hpc⟩ => by rw [row_opcode_mem_three_iff.mp hthree] at hfit; omega]
    simpa using hs

/-- Settles O14: of the seven ways a cycle ends, one halts, and there the byte is HLT's. -/
theorem haltsExactlyAtAFetchedHlt : Obligations.HaltsExactlyAtAFetchedHlt := by
  intro s t hs h
  constructor
  · intro ht
    cases step_iff_cycle.mp h with
    | stopped hn => exact absurd hs hn
    | halt _ hpc hop => exact ⟨hpc, hop⟩
    | complete => simp [hs] at ht
    | fetchFault | decodeFault | operandFault | advanceFault => cases ht
  · rintro ⟨hpc, hop⟩
    cases (Cycle.halt hs hpc hop).step_eq.symm.trans h
    rfl

/-- A word of the opcode table decodes exactly when its low byte is one of the eight. -/
theorem decodeTableWord_eq_none_iff {n : Nat} : decodeTableWord 8 n = none ↔ BitVec.ofNat 8 n ∉ opcodeBytes := by
  have hop : (tableWindow 8 n).op = BitVec.ofNat 8 n := BitVec.eq_of_toNat_eq (by simp [tableWindow])
  rw [← hop, ← lookupOpcode_eq_none_iff, decodeTableWord, decode]
  cases lookupOpcode (tableWindow 8 n).op <;> simp

/-- The words of one byte that decode are, in some order, the eight opcode bytes. -/
theorem legal_words_perm :
    ((List.range 256).filter fun n => !(decodeTableWord 8 n).isNone).Perm (opcodeBytes.map BitVec.toNat) := by
  refine (List.perm_ext_iff_of_nodup (List.nodup_range.filter _) (by decide)).mpr fun n => ?_
  simp only [List.mem_filter, List.mem_range, Bool.not_eq_true', Option.isNone_eq_false_iff, Option.isSome_iff_ne_none,
    Ne, decodeTableWord_eq_none_iff, not_not, List.mem_map]
  constructor
  · rintro ⟨hn, hop⟩
    exact ⟨_, hop, BitVec.toNat_ofNat n 8 ▸ Nat.mod_eq_of_lt hn⟩
  · rintro ⟨op, hop, rfl⟩
    exact ⟨op.isLt, by rwa [BitVec.ofNat_toNat, BitVec.setWidth_eq]⟩

/-- Settles O5: the decode fault and its converse by the cases of the cycle; the count is what the eight legal bytes leave of
256. -/
theorem illegalOpcodeRaisesUnknownOpcode : Obligations.IllegalOpcodeRaisesUnknownOpcode := by
  refine ⟨fun s hs hpc hop => ⟨step_of_illegal hs hpc hop, rfl⟩, fun s t hs h op ht => ?only, ?count, ?zero⟩
  case only =>
    cases step_iff_cycle.mp h with
    | stopped hn => exact absurd hs hn
    | decodeFault _ hpc hop =>
      cases ht
      exact ⟨rfl, hop⟩
    | complete => simp [hs] at ht
    | fetchFault | halt | operandFault | advanceFault => cases ht
  case count =>
    have hsum := (List.range 256).length_eq_length_filter_add fun n => (decodeTableWord 8 n).isNone
    rw [List.length_range] at hsum
    have hlegal := legal_words_perm.length_eq.trans (List.length_map _)
    have height : opcodeBytes.length = 8 := rfl
    omega
  case zero => exact decodeTableWord_eq_none_iff.mpr (by decide)

/-- Settles O28: the ALU reads two registers and has no result for the tag; no case of the cycle has that fault. -/
theorem unsupportedALUOperationIsUnreachable : Obligations.UnsupportedALUOperationIsUnreachable := by
  refine ⟨fun n a b s ha hb => ?refused, fun s t tag hs h ht => ?unreachable⟩
  case refused => simp [alu, s.readReg_of_lt ha, s.readReg_of_lt hb, aluResult]
  case unreachable =>
    cases step_iff_cycle.mp h with
    | stopped hn => exact hn hs
    | complete => simp [hs] at ht
    | fetchFault | decodeFault | halt | operandFault | advanceFault => cases ht

/-- PUSH alone has done something when its operand check fails. -/
theorem beforeOperandCheck_eq_self {m : Mnemonic} {x y : Byte} (s : State) (h : m ≠ .push) :
    beforeOperandCheck (m.build x y) s = s := by
  cases m with
  | push => exact absurd rfl h
  | ldi | prn | hlt | mul | add | sub | pop => rfl

/-- The effect of a three-byte row is one register write, to the register byte 1 names. -/
theorem effect_of_three {m : Mnemonic} {x y : Byte} (s : State) (hlen : m.row.length = 3) (hx : x.toNat < 8) :
    ∃ v : Byte, effect (m.build x y) s = s.setReg ⟨x.toNat, hx⟩ v := by
  cases m with
  | prn | hlt | push | pop => cases hlen
  | ldi | mul | add | sub =>
    rw [← regIndex_of_lt hx]
    exact ⟨_, rfl⟩

/-- Settles O12: of the four faults of a cycle, two leave only the status, the operand check of PUSH leaves the decrement and
the advance the write of a three-byte row. -/
theorem faultsArePreciseExceptTwoCases : Obligations.FaultsArePreciseExceptTwoCases := by
  intro s t f hs h ht
  cases step_iff_cycle.mp h with
  | stopped hn => exact absurd hs hn
  | halt => cases ht
  | complete => simp [hs] at ht
  | fetchFault | decodeFault =>
    cases ht
    exact .inl rfl
  | operandFault _ hpc m hop b hbad =>
    cases ht
    by_cases hm : m = .push
    · subst hm
      obtain ⟨hx, rfl⟩ := firstBad_single_eq_some_iff.mp hbad
      exact .inr (.inl ⟨hop, hx, rfl⟩)
    · exact .inl (by rw [beforeOperandCheck_eq_self s hm])
  | advanceFault _ hpc m hop hwf hlen =>
    cases ht
    have hne : m ≠ .hlt := ne_of_row_length hlen (by decide)
    have hx := ((wellFormed_build_iff hne).mp hwf).1
    obtain ⟨v, hv⟩ := effect_of_three s hlen hx
    refine .inr (.inr ⟨hop ▸ row_opcode_mem_three_iff.mpr hlen, hpc, rfl, v, hx, ?_⟩)
    rw [hv]
    rfl

/-! ### The program counter and the end of a run -/

theorem toNat_add_ofNat {p : Byte} {n : Nat} (h : p.toNat + n < 256) : (p + BitVec.ofNat 8 n).toNat = p.toNat + n := by
  simp [Nat.mod_eq_of_lt h]

/-- Settles O13: a cycle after which the machine is Running is a completed one; every other leaves `pc`. -/
theorem pcMovesOnlyByTheInstructionLength : Obligations.PcMovesOnlyByTheInstructionLength := by
  intro s t hs h
  cases step_iff_cycle.mp h with
  | stopped hn => exact absurd hs hn
  | complete _ m hop hwf hne hfit =>
    refine ⟨fun _ => ⟨_, decode_windowAt hop, ?_⟩, fun ht => absurd ht (by simp [hs])⟩
    rw [length_instrAt]
    exact ⟨toNat_add_ofNat hfit, row_length_of_ne_hlt hne⟩
  | fetchFault | decodeFault | halt => exact ⟨nofun, fun _ => rfl⟩
  | operandFault | advanceFault => exact ⟨nofun, fun _ => by simp⟩

/-- A step after which the machine is Running has moved `pc` by two at least, from 253 at most. -/
theorem pc_of_step_running {s t : State} (h : step s = .next t) (ht : t.status = .running) :
    s.pc.toNat + 2 ≤ t.pc.toNat := by
  have hs : s.status = .running := by
    by_contra hn
    cases (step_stopped hn).symm.trans h
    exact hn ht
  obtain ⟨i, _, hpc, hlen, _⟩ := (pcMovesOnlyByTheInstructionLength s t hs h).1 ht
  omega

theorem run_succ {s t : State} (h : step s = .next t) (k : Nat) : core.run (k + 1) s = core.run k t := by
  have hcore : core.step s = .next t := h
  simp only [Host.Core.run, hcore]

/-- A run of k + 1 cycles from a `pc` that k moves by two bring to 254 has ended (40_execution_loop.md R91). -/
theorem run_ends (k : Nat) : ∀ s : State, 254 ≤ s.pc.toNat + 2 * k →
    ∃ t : State, core.run (k + 1) s = .next t ∧ t.status ≠ .running := by
  induction k with
  | zero =>
    intro s hpc
    obtain ⟨t, ht⟩ := everyStepAnswersANextState s
    refine ⟨t, run_succ ht 0, fun hrun => ?_⟩
    have := pc_of_step_running ht hrun
    have := t.pc.isLt
    omega
  | succ k ih =>
    intro s hpc
    obtain ⟨t, ht⟩ := everyStepAnswersANextState s
    rw [run_succ ht]
    by_cases hrun : t.status = .running
    · have := pc_of_step_running ht hrun
      exact ih t (by omega)
    · exact ⟨t, run_of_step_eq_self (step_stopped hrun) _, hrun⟩

/-- Settles O15: `run_ends` at any `pc`, and at 127 for the lowest. -/
theorem everyRunEndsWithin128Cycles : Obligations.EveryRunEndsWithin128Cycles :=
  ⟨fun s k => run_ends k s, fun s => run_ends 127 s (by omega)⟩

/-! ### Frames -/

/-- A cycle from a state with another FL ends in the same way (10_state.md R30). -/
theorem Cycle.with_fl {s t : State} (v : Byte) (h : Cycle s t) : Cycle { s with fl := v } { t with fl := v } := by
  cases h with
  | stopped hs => exact .stopped hs
  | fetchFault hs hpc => exact .fetchFault hs hpc
  | decodeFault hs hpc hop => exact .decodeFault hs hpc hop
  | halt hs hpc hop => exact .halt hs hpc hop
  | operandFault hs hpc m hop b hbad =>
    have h := Cycle.operandFault (s := { s with fl := v }) hs hpc m hop b hbad
    rwa [beforeOperandCheck_with_fl] at h
  | advanceFault hs hpc m hop hwf hlen =>
    have h := Cycle.advanceFault (s := { s with fl := v }) hs hpc m hop hwf hlen
    rwa [effect_with_fl] at h
  | complete hs m hop hwf hne hfit =>
    have h := Cycle.complete (s := { s with fl := v }) hs m hop hwf hne hfit
    rwa [effect_with_fl] at h

theorem Cycle.fl_eq {s t : State} (h : Cycle s t) : t.fl = s.fl := by
  cases h <;> simp

/-- Settles O16: a cycle keeps FL and ends in the same way from any other; the outputs do not read it. -/
theorem flagsRegisterIsNeitherReadNorWritten : Obligations.FlagsRegisterIsNeitherReadNorWritten := by
  intro s t v h
  have hc := step_iff_cycle.mp h
  exact ⟨hc.fl_eq, (hc.with_fl v).step_eq, fun _ => rfl, rfl, rfl⟩

end Sys2Proof.Machine
end

section
/-! Proofs of the whole-machine frames and of the invariant (10_state.md R23, R32; 20_memory.md R45; 60_exceptions.md R151 to
R154): what each effect can change, then the cases of `Cycle`. -/

namespace Sys2Proof.Machine

/-! ### What an effect can change -/

theorem effect_mem_of_ne_push {m : Mnemonic} {x y : Byte} (s : State) (h : m ≠ .push) :
    (effect (m.build x y) s).mem = s.mem := by
  cases m with
  | push => exact absurd rfl h
  | ldi | prn | hlt | mul | add | sub | pop => rfl

theorem effect_out_of_ne_prn {m : Mnemonic} {x y : Byte} (s : State) (h : m ≠ .prn) :
    (effect (m.build x y) s).out = s.out := by
  cases m with
  | prn => exact absurd rfl h
  | ldi | push | hlt | mul | add | sub | pop => rfl

/-- Every effect keeps the canonical form of memory: PUSH writes at a byte, so below 256. -/
theorem effect_mem_wf (i : Instr) {s : State} (h : s.mem.wf) : (effect i s).mem.wf := by
  cases i with
  | push a => exact Memory.wf_write h (s.sp - 1).isLt _
  | ldi | prn | hlt | mul | add | sub | pop => exact h

/-- Where a register write shows a change, it was to that register. -/
theorem eq_of_setReg_ne {s : State} {i j : Fin 8} {v : Byte} (h : (s.setReg i v).regs[j] ≠ s.regs[j]) : i = j := by
  by_contra hne
  exact h (s.reg_setReg_of_ne i j v hne)

/-- A register an effect changes is the one byte 1 names, or R7 under PUSH and POP. -/
theorem effect_changes_only_named {m : Mnemonic} {x y : Byte} {s : State} {j : Fin 8} (hx : x.toNat < 8)
    (h : (effect (m.build x y) s).regs[j] ≠ s.regs[j]) :
    (m.row.opcode ∈ [0x82#8, 0xA0#8, 0xA1#8, 0xA2#8, 0x46#8] ∧ x.toNat = j.val) ∨
      (m.row.opcode ∈ [0x45#8, 0x46#8] ∧ j = 7) := by
  have hval : regIndex x = j → x.toNat = j.val := by
    rintro rfl
    rw [regIndex_of_lt hx]
  cases m with
  | prn | hlt => exact absurd rfl h
  | ldi | mul | add | sub => exact .inl ⟨by decide, hval (eq_of_setReg_ne h)⟩
  | push => exact .inr ⟨by decide, (eq_of_setReg_ne h).symm⟩
  | pop =>
    by_cases hj : j = 7
    · exact .inr ⟨by decide, hj⟩
    · have hload : (s.setReg (regIndex x) (s.mem.read s.sp.toNat)).regs[j] ≠ s.regs[j] := fun heq =>
        h ((State.reg_setReg_of_ne _ _ j _ (Ne.symm hj)).trans heq)
      exact .inl ⟨by decide, hval (eq_of_setReg_ne hload)⟩

/-! ### Frames of a cycle -/

/-- Settles O17: only the completed PUSH writes memory. -/
theorem memoryChangesOnlyAtThePushedCell : Obligations.MemoryChangesOnlyAtThePushedCell := by
  intro s t x h hchange
  cases step_iff_cycle.mp h with
  | stopped | fetchFault | decodeFault | halt => exact absurd rfl hchange
  | operandFault => simp at hchange
  | advanceFault _ _ m _ _ hlen =>
    have hm : m ≠ .push := ne_of_row_length hlen (by decide)
    simp [effect_mem_of_ne_push s hm] at hchange
  | complete hs m hop =>
    by_cases hm : m = .push
    · subst hm
      refine ⟨hs, hop, ?_, s.sp_setSp _⟩
      by_contra hx
      have hsp : x ≠ (s.sp - 1).toNat := by rwa [← s.sp_setSp (s.sp - 1)]
      exact hchange (s.mem.read_write_of_ne _ hsp)
    · simp [effect_mem_of_ne_push s hm] at hchange

/-- Settles O18: only PUSH writes a register before its operand check, and an effect writes the named ones. -/
theorem registersChangeOnlyWhereNamed : Obligations.RegistersChangeOnlyWhereNamed := by
  intro s t j h hchange
  cases step_iff_cycle.mp h with
  | stopped | fetchFault | decodeFault | halt => exact absurd rfl hchange
  | operandFault hs hpc m hop =>
    by_cases hm : m = .push
    · subst hm
      exact ⟨hs, .inr ⟨hop ▸ by decide, (eq_of_setReg_ne hchange).symm⟩⟩
    · simp [beforeOperandCheck_eq_self s hm] at hchange
  | advanceFault hs _ m hop hwf hlen =>
    have hne : m ≠ .hlt := ne_of_row_length hlen (by decide)
    exact ⟨hs, hop ▸ effect_changes_only_named ((wellFormed_build_iff hne).mp hwf).1 hchange⟩
  | complete hs m hop hwf hne =>
    exact ⟨hs, hop ▸ effect_changes_only_named ((wellFormed_build_iff hne).mp hwf).1 hchange⟩

/-- Settles O19: only the completed PRN emits. -/
theorem outputGrowsOnlyByPrn : Obligations.OutputGrowsOnlyByPrn := by
  intro s t h hchange
  cases step_iff_cycle.mp h with
  | stopped | fetchFault | decodeFault | halt => exact absurd rfl hchange
  | operandFault => simp at hchange
  | advanceFault _ _ m _ _ hlen =>
    have hm : m ≠ .prn := ne_of_row_length hlen (by decide)
    simp [effect_out_of_ne_prn s hm] at hchange
  | complete hs m hop hwf hne =>
    by_cases hm : m = .prn
    · subst hm
      have hx := ((wellFormed_build_iff hne).mp hwf).1
      refine ⟨hs, hop, hx, ?_⟩
      show s.out ++ [s.reg (regIndex _)] = _
      rw [regIndex_of_lt hx]
      rfl
    · simp [effect_out_of_ne_prn s hm] at hchange

/-! ### The invariant -/

/-- Settles O20: memory keeps its canonical form under every effect; each way a cycle stops has its reason
in `pc` and the bytes there, which the stop leaves. -/
theorem everyStepKeepsTheInvariant : Obligations.EveryStepKeepsTheInvariant := by
  intro s t ⟨hmem, hground⟩ h
  cases step_iff_cycle.mp h with
  | stopped => exact ⟨hmem, hground⟩
  | fetchFault _ hpc => exact ⟨hmem, rfl, Nat.le_of_succ_le hpc⟩
  | decodeFault _ hpc hop => exact ⟨hmem, hpc, rfl, hop⟩
  | halt _ hpc hop => exact ⟨hmem, hpc, hop⟩
  | operandFault _ hpc m hop b hbad =>
    obtain ⟨hge, hb⟩ := Instr.badOperand_eq_some hbad
    refine ⟨by simpa using hmem, ?_⟩
    simpa [State.StopGrounded] using ⟨hpc, hge, mem_regOperands_build hb⟩
  | advanceFault _ hpc =>
    refine ⟨effect_mem_wf _ hmem, rfl, ?_⟩
    simp [hpc]
  | complete hs =>
    refine ⟨effect_mem_wf _ hmem, ?_⟩
    simp [State.StopGrounded, hs]

/-- Settles O21: the cleared memory is the empty list, and a Running state needs no reason. -/
theorem resetMeetsTheInvariant : Obligations.ResetMeetsTheInvariant :=
  ⟨reset_mem_wf, trivial⟩

end Sys2Proof.Machine
end

section
/-! Proofs of the statements of 41_load_and_output.md to 44_control.md: each instruction's result, its faults and its
advance. -/

namespace Sys2Proof.Machine

/-! ### Completion: the effect of the instruction, then an advance that fits -/

/-- Settles O30: the meaning on a register that exists, then an advance that fits. -/
theorem ldiLoadsTheImmediate : Obligations.LdiLoadsTheImmediate :=
  fun _ imm s ha hpc => (execLdi_of_lt s imm ha).trans (State.advance_fits _ hpc)

/-- Settles O31: as for LDI, with the byte emitted. -/
theorem prnEmitsTheRegister : Obligations.PrnEmitsTheRegister :=
  fun _ s ha hpc => (execPrn_of_lt s ha).trans (State.advance_fits _ hpc)

/-- Settles O32: a sum of bytes is the sum modulo 256. -/
theorem addIsModulo256 : Obligations.AddIsModulo256 :=
  fun _ _ s ha hb hpc => ⟨_, BitVec.toNat_add _ _, (execAdd_of_lt s ha hb).trans (State.advance_fits _ hpc)⟩

/-- A difference of bytes is the integer difference modulo 256. -/
theorem toNat_byte_sub (x y : Byte) : ((x - y).toNat : Int) = ((x.toNat : Int) - y.toNat) % 256 := by
  rw [BitVec.toNat_sub]
  have := x.isLt
  have := y.isLt
  omega

/-- Settles O33: the meaning of SUB, its byte difference read in the integers. -/
theorem subIsModulo256 : Obligations.SubIsModulo256 :=
  fun _ _ s ha hb hpc => ⟨_, toNat_byte_sub _ _, (execSub_of_lt s ha hb).trans (State.advance_fits _ hpc)⟩

/-- Settles O34: a product of bytes is the product modulo 256. -/
theorem mulIsModulo256 : Obligations.MulIsModulo256 :=
  fun _ _ s ha hb hpc => ⟨_, BitVec.toNat_mul _ _, (execMul_of_lt s ha hb).trans (State.advance_fits _ hpc)⟩

/-- Settles O35: the memory is the one with the byte written at the new stack pointer. -/
theorem pushStoresBelowTheStackPointer : Obligations.PushStoresBelowTheStackPointer :=
  fun _ s ha hmem hpc => ⟨_, (execPush_of_lt s ha).trans (State.advance_fits _ hpc),
    Memory.read_write_self hmem _ _, fun _ hx => s.mem.read_write_of_ne _ hx⟩

/-- Settles O36: the meaning of POP, then an advance that fits. -/
theorem popLoadsAtTheStackPointer : Obligations.PopLoadsAtTheStackPointer :=
  fun _ s ha hpc => (execPop_of_lt s ha).trans (State.advance_fits _ hpc)

/-- Settles O41: the effect keeps the status and FL, and the advance fits. -/
theorem wellFormedNonHltCompletesWhereItsAdvanceFits : Obligations.WellFormedNonHltCompletesWhereItsAdvanceFits :=
  fun i s hwf hne hfit =>
    ⟨_, exec_complete hwf hne hfit, effect_status i s, toNat_add_ofNat hfit, effect_fl i s⟩

/-! ### Faults -/

/-- Settles O40: the same effect from `pc` 0, where the advance fits, and from `pc`, where it does not. -/
theorem advancePastTheTopFaults : Obligations.AdvancePastTheTopFaults := by
  intro i s hwf hne hout
  have hfit : ({ s with pc := 0#8 } : State).pc.toNat + i.length < 256 := by
    have := i.length_le
    show 0 + i.length < 256
    omega
  refine ⟨_, _, exec_complete hwf hne hfit, effect_status i _, exec_advanceFault hwf hne hout, ?_⟩
  have heffect : effect i { s with pc := 0#8 } = { effect i s with pc := 0#8 } := effect_with_pc i s 0#8
  simp only [heffect, effect_pc]

/-- Where register A names no register, it is the one reported. -/
theorem badOperand_of_ge {i : Instr} {a : Byte} {rest : List Byte} (hi : i.regOperands = a :: rest) (ha : 8 ≤ a.toNat) :
    i.badOperand = some a := by
  simp [Instr.badOperand, firstBad, hi, ha]

/-- Settles O38: the first bad operand is register A, or B where A is good; none of the forms has done anything before the
check. -/
theorem invalidRegisterIsTakenWithNoEffect : Obligations.InvalidRegisterIsTakenWithNoEffect := by
  refine fun a b s => ⟨fun ha i hi => ?registerA, fun ha hb i hi => ?registerB⟩
  case registerA =>
    have hform : beforeOperandCheck i s = s ∧ ∃ rest, i.regOperands = a :: rest := by
      simp only [List.mem_cons, List.not_mem_nil, or_false] at hi
      rcases hi with rfl | rfl | rfl | rfl | rfl | rfl <;> exact ⟨rfl, _, rfl⟩
    obtain ⟨hsame, _, hreg⟩ := hform
    rw [exec_of_badOperand s (badOperand_of_ge hreg ha), hsame]
  case registerB =>
    have hform : beforeOperandCheck i s = s ∧ i.badOperand = firstBad [a, b] := by
      simp only [List.mem_cons, List.not_mem_nil, or_false] at hi
      rcases hi with rfl | rfl | rfl <;> exact ⟨rfl, rfl⟩
    obtain ⟨hsame, hbad⟩ := hform
    have hb : firstBad [a, b] = some b := firstBad_pair_eq_some_iff.mpr (.inr ⟨ha, hb, rfl⟩)
    rw [exec_of_badOperand s (hbad.trans hb), hsame]

/-- Settles O39: the operand check of PUSH comes after the decrement. -/
theorem pushOfNoRegisterKeepsTheDecrement : Obligations.PushOfNoRegisterKeepsTheDecrement :=
  fun _ s ha => exec_of_badOperand s (firstBad_single_eq_some_iff.mpr ⟨ha, rfl⟩)

/-! ### HLT -/

/-- Settles O37: HLT leaves a stopped state, which a step answers with itself; at 254 the fetch faults first. -/
theorem hltStopsAndChangesNothing : Obligations.HltStopsAndChangesNothing := by
  refine ⟨rfl, fun _ _ => decode_ok_iff.mpr ⟨.hlt, rfl, rfl⟩, fun s => ⟨exec_hlt s, fun k => ?_, ?_, rfl⟩,
    fun s hs hpc _ => fetchPastTheTopFaults s hs hpc⟩
  · exact run_of_step_eq_self (step_stopped (s := s.halt) nofun) k
  · rintro (_ | _) <;> rfl

/-! ### The ALU, read as two's complement -/

theorem aluResult_add (x y : Byte) : aluResult .add x y = .ok (x + y) := congrArg Except.ok (narrow_add x y)
theorem aluResult_sub (x y : Byte) : aluResult .sub x y = .ok (x - y) := congrArg Except.ok (narrow_sub x y)
theorem aluResult_mul (x y : Byte) : aluResult .mul x y = .ok (x * y) := congrArg Except.ok (narrow_mul x y)

/-- The register an ALU operation leaves holds its result on the two registers read before. -/
theorem alu_result {tag : AluTag} {a b : Byte} {s t : State} (ha : a.toNat < 8) (hb : b.toNat < 8)
    (h : alu tag a b s = .ok t) : aluResult tag s.regs[a.toNat] s.regs[b.toNat] = .ok t.regs[a.toNat] := by
  obtain ⟨_, _, r, hr, rfl⟩ := alu_cases h
  exact hr.trans (congrArg _ (s.reg_setReg_self ⟨a.toNat, ha⟩ r).symm)

/-- Settles O29: the byte operations of the bit vectors are the signed ones wrapped. -/
theorem signedReadingOfTheAluAgrees : Obligations.SignedReadingOfTheAluAgrees := by
  intro a b s t ha hb
  refine ⟨fun h => ?add, fun h => ?sub, fun h => ?mul⟩
  case add =>
    rw [← Except.ok.inj ((aluResult_add _ _).symm.trans (alu_result ha hb h)), BitVec.toInt_add]
  case sub =>
    rw [← Except.ok.inj ((aluResult_sub _ _).symm.trans (alu_result ha hb h)), BitVec.toInt_sub]
  case mul =>
    rw [← Except.ok.inj ((aluResult_mul _ _).symm.trans (alu_result ha hb h)), BitVec.toInt_mul]

end Sys2Proof.Machine
end

section
/-! Proofs of the statements about memory, reset, the image load and the placed table word (20_memory.md R41, R42; 10_state.md
R35; 70_reset_and_hazards.md R181). -/

namespace Sys2Proof.Machine

/-- Settles O26: from the rules of the memory list on either side of 256. -/
theorem memoryAccessContract : Obligations.MemoryAccessContract := by
  refine fun s a v hmem => ⟨fun ha => ?inside, fun ha => ⟨s.memRead_of_ge ha, s.memWrite_of_ge v ha⟩⟩
  case inside =>
    have ha : a < 256 := by omega
    exact ⟨s.memRead_of_lt ha, _, s.memWrite_of_lt v ha, Memory.wf_write hmem ha v, Memory.read_write_self hmem a v,
      fun _ hx => s.mem.read_write_of_ne v hx⟩

/-- Settles O22: by evaluation; a cell the empty list does not hold reads as cleared. -/
theorem resetLeavesTheStatedValues : Obligations.ResetLeavesTheStatedValues :=
  ⟨by decide, rfl, rfl, rfl, rfl, fun _ => rfl⟩

/-! ### The image load -/

/-- Bytes that fit are written one after the other, from address `a` up, and change nothing else. -/
theorem loadBytes_fits (image : List Byte) : ∀ (a : Nat) (s : State), s.mem.wf → a + image.length ≤ 256 →
    ∃ m : Memory, loadBytes image a s = .ok { s with mem := m } ∧ m.wf ∧
      ∀ x, m.read x = if a ≤ x ∧ x < a + image.length then image.getD (x - a) 0x00#8 else s.mem.read x := by
  induction image with
  | nil =>
    intro a s hmem _
    exact ⟨s.mem, rfl, hmem, fun x => (if_neg (by simp)).symm⟩
  | cons v vs ih =>
    intro a s hmem hfit
    rw [List.length_cons] at hfit
    have ha : a < 256 := by omega
    obtain ⟨m, hload, hm, hread⟩ := ih (a + 1) { s with mem := s.mem.write a v } (Memory.wf_write hmem ha v) (by omega)
    refine ⟨m, by simpa only [loadBytes, s.memWrite_of_lt v ha] using hload, hm, fun x => ?_⟩
    rw [hread, List.length_cons]
    by_cases hx : x = a
    · subst hx
      rw [if_neg (by omega), if_pos (by omega), Memory.read_write_self hmem]
      simp
    · rw [Memory.read_write_of_ne _ _ hx]
      by_cases hin : a + 1 ≤ x ∧ x < a + 1 + vs.length
      · rw [if_pos hin, if_pos (by omega), show x - a = x - (a + 1) + 1 by omega, List.getD_cons_succ]
      · rw [if_neg hin, if_neg (by omega)]

/-- Bytes that run past the top raise at address 256, the first that does not exist. -/
theorem loadBytes_tooLong (image : List Byte) : ∀ (a : Nat) (s : State), a ≤ 256 → 256 < a + image.length →
    loadBytes image a s = .error (.outOfBounds 256) := by
  induction image with
  | nil =>
    intro a s ha hlong
    rw [List.length_nil] at hlong
    omega
  | cons v vs ih =>
    intro a s ha hlong
    rw [List.length_cons] at hlong
    by_cases htop : a = 256
    · subst htop
      simp only [loadBytes, s.memWrite_of_ge v (le_refl 256)]
    · have ha : a < 256 := by omega
      simpa only [loadBytes, s.memWrite_of_lt v ha] using ih (a + 1) _ (by omega) (by omega)

/-- Settles O23: the load from address 0 over the cleared memory. -/
theorem imageLoadPlacesTheImage : Obligations.ImageLoadPlacesTheImage := by
  refine ⟨fun image hlen => ?fits, fun image hlong => ?tooLong⟩
  case fits =>
    obtain ⟨m, hload, hm, hread⟩ := loadBytes_fits image 0 .reset reset_mem_wf (by omega)
    refine ⟨m, by rw [loadImage, Config.loadAddress, hload], fun x => ?_, hm, trivial⟩
    rw [hread]
    by_cases hx : x < image.length
    · rw [if_pos (by omega), Nat.sub_zero]
    · rw [if_neg (by omega), List.getD_eq_default _ _ (by omega)]
      rfl
  case tooLong =>
    rw [loadImage, Config.loadAddress, loadBytes_tooLong image 0 _ (by omega) (by omega)]

/-! ### The placed table word -/

/-- The window of the state a window is placed in is that window. -/
theorem windowAt_placeWindow {s : State} (w : Window) (hmem : s.mem.wf) :
    (placeWindow s w).pc.toNat ≤ 253 ∧ windowAt (placeWindow s w) = w := by
  have hpc : (windowPc s).toNat ≤ 253 := by
    unfold windowPc
    split_ifs with h
    · exact Nat.le_of_lt_succ (Nat.lt_of_add_lt_add_right h)
    · decide
  have h0 := Memory.wf_write hmem (show (windowPc s).toNat < 256 by omega) w.op
  have h1 := Memory.wf_write h0 (show (windowPc s).toNat + 1 < 256 by omega) w.a
  refine ⟨hpc, ?_⟩
  simp only [windowAt, placeWindow, Memory.read_write_self h1, Memory.read_write_self h0, Memory.read_write_self hmem,
    Memory.read_write_of_ne _ _ (show (windowPc s).toNat ≠ (windowPc s).toNat + 2 by omega),
    Memory.read_write_of_ne _ _ (show (windowPc s).toNat ≠ (windowPc s).toNat + 1 by omega),
    Memory.read_write_of_ne _ _ (show (windowPc s).toNat + 1 ≠ (windowPc s).toNat + 2 by omega)]

theorem decode_of_decodeTableWord {nbits w : Nat} {i : Instr} (h : decodeTableWord nbits w = some i) :
    decode (tableWindow nbits w) = .ok i := by
  unfold decodeTableWord at h
  split at h
  · cases h
    assumption
  · cases h

/-- Settles O24: the placed state is Running and its window is the word's. -/
theorem placedTableWordIsTheNextInstruction : Obligations.PlacedTableWordIsTheNextInstruction := by
  intro s nbits w i hmem hi
  obtain ⟨hpc, hw⟩ := windowAt_placeWindow (tableWindow nbits w) hmem
  exact step_of_decode rfl hpc (hw.symm ▸ decode_of_decodeTableWord hi)

end Sys2Proof.Machine
end

section
/-! Proofs of the statements about instructions together and about the host's side (20_memory.md R53; 40_execution_loop.md R82;
41_load_and_output.md R101, R102; 43_stack.md R132; 60_exceptions.md R158). -/

namespace Sys2Proof.Machine

/-! ### Instructions together -/

section
variable {s : State} (hs : s.status = .running)
include hs

/-- A LDI fetched at a `pc` its advance does not leave memory from. -/
theorem step_ldi {r v : Byte} (hr : r.toNat < 8) (hpc : s.pc.toNat + 3 < 256) (hop : s.mem.read s.pc.toNat = 0x82#8)
    (ha : s.mem.read (s.pc.toNat + 1) = r) (hv : s.mem.read (s.pc.toNat + 2) = v) :
    step s = .next { s with regs := s.regs.set r.toNat v hr, pc := s.pc + 3#8 } := by
  have hi : decode (windowAt s) = .ok (.ldi r v) := ha ▸ hv ▸ decode_windowAt (m := .ldi) hop
  exact (step_of_decode hs (by omega) hi).trans (ldiLoadsTheImmediate r v s hr hpc)

/-- A PRN that is fetched, and so completes. -/
theorem step_prn {r : Byte} (hr : r.toNat < 8) (hpc : s.pc.toNat ≤ 253) (hop : s.mem.read s.pc.toNat = 0x47#8)
    (ha : s.mem.read (s.pc.toNat + 1) = r) :
    step s = .next { s with out := s.out ++ [s.regs[r.toNat]], pc := s.pc + 2#8 } := by
  have hi : decode (windowAt s) = .ok (.prn r) := ha ▸ decode_windowAt (m := .prn) hop
  exact (step_of_decode hs hpc hi).trans (prnEmitsTheRegister r s hr (by omega))

/-- A PUSH that is fetched, and so completes (43_stack.md R130). -/
theorem step_push {r : Byte} (hr : r.toNat < 8) (hpc : s.pc.toNat ≤ 253) (hmem : s.mem.wf)
    (hop : s.mem.read s.pc.toNat = 0x45#8) (ha : s.mem.read (s.pc.toNat + 1) = r) : ∃ m : Memory,
    step s = .next { s with regs := s.regs.set 7 (s.regs[7] - 1#8), pc := s.pc + 2#8, mem := m } ∧
      m.read (s.regs[7] - 1#8).toNat = (s.regs.set 7 (s.regs[7] - 1#8))[r.toNat] ∧
      ∀ x, x ≠ (s.regs[7] - 1#8).toNat → m.read x = s.mem.read x := by
  have hi : decode (windowAt s) = .ok (.push r) := ha ▸ decode_windowAt (m := .push) hop
  rw [step_of_decode hs hpc hi]
  exact pushStoresBelowTheStackPointer r s hr hmem (by omega)

end

/-- Settles O42: LDI moves `pc` on to the PRN, which reads the register LDI wrote. -/
theorem ldiThenPrnEmitsTheImmediate : Obligations.LdiThenPrnEmitsTheImmediate := by
  intro s r v hs hr hpc hop ha hv hop' ha'
  have hldi := step_ldi hs hr (by omega) hop ha hv
  have hpc' : (s.pc + 3#8).toNat = s.pc.toNat + 3 := toNat_add_ofNat (by omega)
  have hprn := step_prn (s := { s with regs := s.regs.set r.toNat v hr, pc := s.pc + 3#8 }) hs hr
    (by show (s.pc + 3#8).toNat ≤ 253; omega) (by rwa [hpc']) (by rwa [hpc'])
  exact ⟨_, (run_succ hldi 1).trans (run_succ hprn 0), by simp, hs⟩

/-- Settles O43: POP loads the byte PUSH stored, at the stack pointer PUSH left, and its increment undoes the decrement. -/
theorem pushThenPopRestores : Obligations.PushThenPopRestores := by
  intro a s t m u ha hmem hpc hpush hsp hcell hpc' hpop
  obtain ⟨mem, hpush', hstored, _⟩ := pushStoresBelowTheStackPointer a s ha hmem hpc
  cases hpush'.symm.trans hpush
  cases (popLoadsAtTheStackPointer a m ha hpc').symm.trans hpop
  simp only [Vector.getElem_set_self] at hsp hcell
  have hload : m.mem.read m.regs[7].toNat = (s.regs.set 7 (s.regs[7] - 1#8))[a.toNat] := by rw [hsp, hcell, hstored]
  simp only [hload, Vector.getElem_set]
  by_cases ha7 : a.toNat = 7
  · simp [ha7]
  · simp [Ne.symm ha7, ha7, hsp]

/-- Slot j of the window at `pc` is the byte at pc + j. -/
theorem windowAt_slot (s : State) {j : Nat} (hj : j < 3) :
    [(windowAt s).op, (windowAt s).a, (windowAt s).b][j]? = some (s.mem.read (s.pc.toNat + j)) := by
  match j, hj with
  | 0, _ | 1, _ | 2, _ => rfl

/-- Settles O44: the fetch after the PUSH reads the memory it left, whose one new byte is slot k. -/
theorem pushedByteIsFetchedByTheNextCycle : Obligations.PushedByteIsFetchedByTheNextCycle := by
  intro s a k ha hs hmem hpc hk hop harg hsp
  obtain ⟨m, hstep, hstored, hkept⟩ := step_push hs ha (by omega) hmem hop harg
  have hpc' : (s.pc + 2#8).toNat = s.pc.toNat + 2 := toNat_add_ofNat (by omega)
  refine ⟨_, _, hstep, hs, hpc', fetch_of_le (hpc'.trans_le hpc), ?pushed, fun j hj hne => ?other⟩
  case pushed => rw [windowAt_slot _ hk, ← hstored, hsp, hpc']
  case other => rw [windowAt_slot _ hj, ← hkept _ (by omega), hpc']

/-! ### The host's side -/

/-- Settles O45: each fault's exit status is a successor, whatever the unspecified part of it is. -/
theorem exitStatusSaysHowTheRunEnded : Obligations.ExitStatusSaysHowTheRunEnded := by
  intro s
  have hnonzero : ∀ f : Fault, f.exitStatus ≠ 0 := by
    rintro (_ | _ | _ | _) <;> exact Nat.succ_ne_zero _
  refine ⟨fun hs => ?_, fun hs => ?_, fun op hs => ?_, fun f hs => ⟨f.exitStatus, ?_, hnonzero f⟩⟩
  · simp [State.exitStatus, hs]
  · simp [State.exitStatus, show s.status = .halted from hs]
  · simp [State.exitStatus, hs, Fault.exitStatus]
  · simp [State.exitStatus, hs]

theorem tracePort_false (s : State) : State.tracePort false s = none := by
  simp [State.tracePort]

theorem tracePort_true {s : State} (hs : s.status = .running) : State.tracePort true s = some s.snapshot := by
  simp [State.tracePort, hs]

theorem traceOfRun_succ {s t : State} (enabled : Bool) (h : step s = .next t) (k : Nat) :
    traceOfRun enabled (k + 1) s = (s.tracePort enabled).toList ++ traceOfRun enabled k t := by
  simp only [traceOfRun, h]

theorem traceOfRun_false (k : Nat) (s : State) : traceOfRun false k s = [] := by
  induction k generalizing s with
  | zero => rfl
  | succ k ih =>
    obtain ⟨t, ht⟩ := everyStepAnswersANextState s
    rw [traceOfRun_succ false ht, ih, tracePort_false]
    rfl

/-- With the trace enabled, k Running cycles give k snapshots, each of the state its cycle starts in. -/
theorem traceOfRun_true (k : Nat) : ∀ s : State,
    (∀ j < k, ∃ u : State, core.run j s = .next u ∧ u.status = .running) →
    (traceOfRun true k s).length = k ∧
      ∀ (j : Nat) (u : State), j < k → core.run j s = .next u → (traceOfRun true k s)[j]? = some u.snapshot := by
  induction k with
  | zero => exact fun _ _ => ⟨rfl, fun j _ hj => absurd hj (Nat.not_lt_zero j)⟩
  | succ k ih =>
    intro s hrun
    obtain ⟨_, hzero, hs⟩ := hrun 0 (Nat.succ_pos k)
    cases hzero
    obtain ⟨t, ht⟩ := everyStepAnswersANextState s
    obtain ⟨hlen, hget⟩ := ih t fun j hj => by simpa only [run_succ ht] using hrun (j + 1) (Nat.succ_lt_succ hj)
    rw [traceOfRun_succ true ht, tracePort_true hs]
    refine ⟨by simp [hlen], fun j u hj hu => ?_⟩
    cases j with
    | zero =>
      cases hu
      rfl
    | succ j => exact hget j u (Nat.lt_of_succ_lt_succ hj) ((run_succ ht j).symm.trans hu)

/-- Settles O46: the j-th snapshot is that of the state the j-th cycle starts in. -/
theorem traceShowsOneSnapshotPerCycle : Obligations.TraceShowsOneSnapshotPerCycle := by
  intro s k hrun
  obtain ⟨hlen, hget⟩ := traceOfRun_true k s hrun
  exact ⟨hlen, traceOfRun_false k s, fun j u hj hu => ⟨u.snapshot, hget j u hj hu, rfl, rfl, if_pos u.pc.isLt, rfl, rfl⟩⟩

/-! ### Text -/

/-- The digit of a value below 10, by its code point. -/
theorem digitChar_of_lt {d : Nat} (h : d < 10) : d.digitChar = Char.ofNat (48 + d) := by
  interval_cases d <;> rfl

theorem toDigits_ten_of_lt {n : Nat} (h : n < 10) : Nat.toDigits 10 n = [Char.ofNat (48 + n)] := by
  rw [Nat.toDigits_of_lt_base h, digitChar_of_lt h]

/-- The last digit of a value of 10 or more, split off. -/
theorem toDigits_ten_of_ge {n : Nat} (h : 10 ≤ n) :
    Nat.toDigits 10 n = Nat.toDigits 10 (n / 10) ++ [Char.ofNat (48 + n % 10)] := by
  rw [Nat.toDigits_of_base_le (by decide) h, digitChar_of_lt (Nat.mod_lt n (by decide))]

/-- Settles O47: of a byte below 10 no digit is split off, below 100 one, and otherwise two. -/
theorem prnTextIsUnsignedDecimal : Obligations.PrnTextIsUnsignedDecimal := by
  intro v
  have hv := v.isLt
  rw [decimalText, String.toList_ofList]
  split_ifs with hone htwo
  · exact toDigits_ten_of_lt hone
  · rw [toDigits_ten_of_ge (by omega), toDigits_ten_of_lt (by omega)]
    rfl
  · rw [toDigits_ten_of_ge (by omega), toDigits_ten_of_ge (by omega), toDigits_ten_of_lt (by omega),
      Nat.div_div_eq_div_mul]
    rfl

end Sys2Proof.Machine
end
